-- ==== Sys2Proof/Word.lean ====
section
/-!
DEFINITION. The word types of PKK-CORE (spec/00_scope.md R7, R9, R10, R11): 32-bit command words, 64-bit scalar words,
16-bit immediates, 8-bit opcodes, W-bit digits, numbers, and the two register files' numbers.
-/

namespace Sys2Proof

/-- A command word (`CLEN = 32`, R7, R70). -/
abbrev Word32 := BitVec 32

/-- A scalar register, `DIN`, `DOUT` or `stat` (`XLEN = 64`, R7). -/
abbrev Word64 := BitVec 64

/-- The immediate of format I (R71, R74). -/
abbrev Imm16 := BitVec 16

/-- The opcode field of a command word (R71). -/
abbrev Byte := BitVec 8

/-- A number (R10): its digits, index 0 the least significant; its length is the list's. A digit is the unsigned integer below
`2^W` the rules compute with (R9, R10). `W` is a parameter of the build, so the bound is an invariant of the state
(`NumberOk`), not part of the type. DESIGN CHOICE, safe: log entry 6. -/
abbrev Number := List Nat

/-- A number register's number, `V0` to `V15` (`NV = 16`, R7, R76). -/
abbrev VReg := Fin 16

/-- A scalar register's number, `X0` to `X15` (`NX = 16`, R7, R76). -/
abbrev XReg := Fin 16

end Sys2Proof
end

