-- ==== Sys2Proof/Config.lean ====
section
/-!
DEFINITION. The implementation parameters of the block (spec/00_scope.md R6, R7, R8): digit width `W`, capacity `CAP` and
`LOGIC_PRESENT`. The spec leaves them OPEN, "a parameter of the model": a State carries one `Params`, no step changes it
(log entry 1), and a statement about every state is a statement about every build. The spec has no free value.
-/

namespace Sys2Proof

/-- The digit widths `W` may take (R7). -/
inductive DigitWidth where
  | w8
  | w16
  | w32
  | w64
deriving DecidableEq, Repr

/-- `W` as a number of bits (R7). -/
def DigitWidth.bits : DigitWidth → Nat
  | .w8 => 8
  | .w16 => 16
  | .w32 => 32
  | .w64 => 64

/-- The parameters that are fixed when the block is built (R7). -/
structure Params where
  /-- `W`, the digit width. -/
  width : DigitWidth
  /-- `CAP`, the capacity of one number register in digits. -/
  cap : Nat
  /-- `LOGIC_PRESENT`, whether the unit of spec/46_logic.md is built (R6). -/
  logicPresent : Bool
deriving DecidableEq, Repr

/-- `W` in bits. -/
def Params.W (p : Params) : Nat := p.width.bits

/-- The bounds R7 and R8 put on `CAP`. -/
abbrev Params.Valid (p : Params) : Prop := 2 ≤ p.cap ∧ p.cap ≤ 65535

/-- The build the spec's test vectors use (R7: `W = 8`, `CAP = 8`, `LOGIC_PRESENT = true`). DESIGN CHOICE, unsafe: log entry 2,
it is the build of `State.reset`. -/
def Params.vectors : Params := { width := .w8, cap := 8, logicPresent := true }

end Sys2Proof
end

