-- ==== Sys2Proof/Syntax.lean ====
section
/-!
DEFINITION. The commands of PKK-CORE (spec/30_encoding.md R78), one constructor per row of spec/opcode_table.json. The
operands of a constructor stand in the order of the assembly syntax R83, destinations first.
-/

namespace Sys2Proof

/-- A decoded command (R78, R83). -/
inductive Instr where
  /-- `XLD xd` (R250). -/
  | xld (xd : XReg)
  /-- `XLI xd, imm` (R251). -/
  | xli (xd : XReg) (imm : Imm16)
  /-- `XRD xs` (R252). -/
  | xrd (xs : XReg)
  /-- `VZERO vd, len` (R253). -/
  | vzero (vd : VReg) (len : Imm16)
  /-- `VWR vd, xs, idx` (R254). -/
  | vwr (vd : VReg) (xs : XReg) (idx : Imm16)
  /-- `VRD xd, vs, idx` (R255). -/
  | vrd (xd : XReg) (vs : VReg) (idx : Imm16)
  /-- `VLEN xd, vs` (R256). -/
  | vlen (xd : XReg) (vs : VReg)
  /-- `VMOV vd, vs` (R257). -/
  | vmov (vd vs : VReg)
  /-- `VPAD vd, vs, len` (R258). -/
  | vpad (vd vs : VReg) (len : Imm16)
  /-- `ADDS xsum, xcarry, xa, xb` (R103). -/
  | adds (xsum xcarry xa xb : XReg)
  /-- `SUBS xdiff, xborrow, xa, xb` (R104). -/
  | subs (xdiff xborrow xa xb : XReg)
  /-- `MULS vd, xa, xb` (R105). -/
  | muls (vd : VReg) (xa xb : XReg)
  /-- `CMP xd, va, vb` (R121). -/
  | cmp (xd : XReg) (va vb : VReg)
  /-- `EQ xd, va, vb` (R123). -/
  | eq (xd : XReg) (va vb : VReg)
  /-- `ADD vd, xovf, va, vb` (R142). -/
  | add (vd : VReg) (xovf : XReg) (va vb : VReg)
  /-- `SUB vd, xovf, va, vb` (R145). -/
  | sub (vd : VReg) (xovf : XReg) (va vb : VReg)
  /-- `MULSC vd, xa, vb` (R162). -/
  | mulsc (vd : VReg) (xa : XReg) (vb : VReg)
  /-- `MUL vd, va, vb` (R165). -/
  | mul (vd va vb : VReg)
  /-- `DIV vq, vr, va, vb` (R181). -/
  | div (vq vr va vb : VReg)
  /-- `SHL vd, vs, xt` (R204). -/
  | shl (vd vs : VReg) (xt : XReg)
  /-- `SHR vd, vs, xt` (R205). -/
  | shr (vd vs : VReg) (xt : XReg)
  /-- `SHRF vd, vs, xt, xf` (R207). -/
  | shrf (vd vs : VReg) (xt xf : XReg)
  /-- `LZC xd, vs` (R211). -/
  | lzc (xd : XReg) (vs : VReg)
  /-- `TZC xd, vs` (R213). -/
  | tzc (xd : XReg) (vs : VReg)
  /-- `BWID xd, vs` (R215). -/
  | bwid (xd : XReg) (vs : VReg)
  /-- `AND vd, va, vb` (R231). -/
  | and (vd va vb : VReg)
  /-- `OR vd, va, vb` (R232). -/
  | or (vd va vb : VReg)
  /-- `XOR vd, va, vb` (R233). -/
  | xor (vd va vb : VReg)
  /-- `NOT vd, va` (R234). -/
  | not (vd va : VReg)
deriving DecidableEq, Repr

end Sys2Proof
end

