-- ==== Sys2Proof/WellFormed.lean ====
section
/-!
DEFINITION. Which commands of Instr a word can stand for (spec/30_encoding.md R80): register numbers and immediates are
legal by their types, so what is left is R80 case 4 (equal destinations, R85) and case 5 (absent logic unit, R86).
-/

namespace Sys2Proof

/-- R80 case 4, R85: `ADDS`, `SUBS` and `DIV` name two different destinations. -/
def Instr.distinctDests : Instr → Bool
  | .adds d e _ _ | .subs d e _ _ | .div d e _ _ => d ≠ e
  | .xld .. | .xli .. | .xrd .. | .vzero .. | .vwr .. | .vrd .. | .vlen .. | .vmov .. | .vpad .. | .muls .. | .cmp ..
  | .eq .. | .add .. | .sub .. | .mulsc .. | .mul .. | .shl .. | .shr .. | .shrf .. | .lzc .. | .tzc .. | .bwid ..
  | .and .. | .or .. | .xor .. | .not .. => true

/-- The commands of the optional unit (spec/46_logic.md, R6). -/
def Instr.needsLogic : Instr → Bool
  | .and .. | .or .. | .xor .. | .not .. => true
  | .xld .. | .xli .. | .xrd .. | .vzero .. | .vwr .. | .vrd .. | .vlen .. | .vmov .. | .vpad .. | .adds .. | .subs ..
  | .muls .. | .cmp .. | .eq .. | .add .. | .sub .. | .mulsc .. | .mul .. | .div .. | .shl .. | .shr .. | .shrf ..
  | .lzc .. | .tzc .. | .bwid .. => false

/-- A command that a legal word stands for on a block built with `LOGIC_PRESENT = logic` (R80). -/
def Instr.wellFormed (logic : Bool) (i : Instr) : Bool :=
  i.distinctDests && (logic || !i.needsLogic)

end Sys2Proof
end

