-- ==== Sys2Proof/Decode.lean ====
section
/-!
DEFINITION. The command word (spec/30_encoding.md): its fields (R71 to R74), the opcode map as a table (R78), the decoder
(R82), total on every 32-bit word and rejecting by name (R80), and an encoder written from R72, R73, R78 and R83. The core
has no bytes and no byte order (R53, R70): a command word arrives whole.
-/

namespace Sys2Proof

/-! ## Fields (R71) -/

/-- `opcode = cmd[7:0]`. -/
def cmdOpcode (w : Word32) : Byte := w.extractLsb' 0 8

/-- `rd = cmd[11:8]`. -/
def cmdRd (w : Word32) : Fin 16 := (w.extractLsb' 8 4).toFin

/-- `rs1 = cmd[15:12]`. -/
def cmdRs1 (w : Word32) : Fin 16 := (w.extractLsb' 12 4).toFin

/-- `rs2 = cmd[19:16]`, format R only. -/
def cmdRs2 (w : Word32) : Fin 16 := (w.extractLsb' 16 4).toFin

/-- `re = cmd[23:20]`, format R only. -/
def cmdRe (w : Word32) : Fin 16 := (w.extractLsb' 20 4).toFin

/-- `z = cmd[31:24]`, format R only. -/
def cmdZ (w : Word32) : Byte := w.extractLsb' 24 8

/-- `imm16 = cmd[31:16]`, format I only (R74: unsigned). -/
def cmdImm (w : Word32) : Imm16 := w.extractLsb' 16 16

/-! ## The opcode map (R78) -/

/-- The commands' names, in the order of R78. -/
inductive Op where
  | XLD | XLI | XRD | VZERO | VWR | VRD | VLEN | VMOV | VPAD
  | ADDS | SUBS | MULS | CMP | EQ | ADD | SUB | MULSC | MUL | DIV
  | SHL | SHR | SHRF | LZC | TZC | BWID | AND | OR | XOR | NOT
deriving DecidableEq, Repr

/-- The two formats (R72, R73). -/
inductive Fmt where
  | R
  | I
deriving DecidableEq, Repr

/-- One row of R78: the opcode, the format, and which register fields the command uses (the others are `-`). -/
structure OpRow where
  op : Op
  code : Byte
  fmt : Fmt
  rd : Bool
  rs1 : Bool
  rs2 : Bool
  re : Bool
deriving DecidableEq, Repr

/-- The opcode map R78, row by row. `rs2` and `re` do not exist in format I (R71). -/
def opcodeMap : List OpRow :=
  [ ⟨.XLD, 0x01, .R, true, false, false, false⟩,
    ⟨.XLI, 0x02, .I, true, false, false, false⟩,
    ⟨.XRD, 0x03, .R, false, true, false, false⟩,
    ⟨.VZERO, 0x04, .I, true, false, false, false⟩,
    ⟨.VWR, 0x05, .I, true, true, false, false⟩,
    ⟨.VRD, 0x06, .I, true, true, false, false⟩,
    ⟨.VLEN, 0x07, .R, true, true, false, false⟩,
    ⟨.VMOV, 0x08, .R, true, true, false, false⟩,
    ⟨.VPAD, 0x09, .I, true, true, false, false⟩,
    ⟨.ADDS, 0x10, .R, true, true, true, true⟩,
    ⟨.SUBS, 0x11, .R, true, true, true, true⟩,
    ⟨.MULS, 0x12, .R, true, true, true, false⟩,
    ⟨.CMP, 0x18, .R, true, true, true, false⟩,
    ⟨.EQ, 0x19, .R, true, true, true, false⟩,
    ⟨.ADD, 0x20, .R, true, true, true, true⟩ ] ++
  [ ⟨.SUB, 0x21, .R, true, true, true, true⟩,
    ⟨.MULSC, 0x28, .R, true, true, true, false⟩,
    ⟨.MUL, 0x29, .R, true, true, true, false⟩,
    ⟨.DIV, 0x30, .R, true, true, true, true⟩,
    ⟨.SHL, 0x38, .R, true, true, true, false⟩,
    ⟨.SHR, 0x39, .R, true, true, true, false⟩,
    ⟨.SHRF, 0x3A, .R, true, true, true, true⟩,
    ⟨.LZC, 0x3C, .R, true, true, false, false⟩,
    ⟨.TZC, 0x3D, .R, true, true, false, false⟩,
    ⟨.BWID, 0x3E, .R, true, true, false, false⟩,
    ⟨.AND, 0x40, .R, true, true, true, false⟩,
    ⟨.OR, 0x41, .R, true, true, true, false⟩,
    ⟨.XOR, 0x42, .R, true, true, true, false⟩,
    ⟨.NOT, 0x43, .R, true, true, false, false⟩ ]

/-- The row an opcode selects, if any (R78, R80 case 1). -/
def opRow (code : Byte) : Option OpRow := opcodeMap.find? (fun r => r.code == code)

/-- The opcodes `0x40` to `0x43` of the optional unit (R82, R86). -/
def logicOps : List Op := [.AND, .OR, .XOR, .NOT]

/-- The commands that write two destinations of one file (R82, R85). -/
def twoDestOps : List Op := [.ADDS, .SUBS, .DIV]

/-! ## The decoder (R82) -/

/-- Why a word is illegal, by the case of R80. Each raises the fault `ILLEGAL_CMD`. -/
inductive Illegal where
  /-- Case 1: the opcode is not in R78, or is `0x00`. -/
  | unknownOpcode
  /-- Case 2: format R and `cmd[31:24] != 0`. -/
  | nonzeroZ
  /-- Case 3, R77: a register field the command does not use is nonzero. -/
  | nonzeroUnusedField
  /-- Case 4, R85: the same register is named twice as a destination. -/
  | sameDestTwice
  /-- Case 5, R86: a logic command on a block built without the logic unit. -/
  | logicAbsent
deriving DecidableEq, Repr

/-- The command an opcode row and the word's fields stand for (the last line of R82, with the roles of R78). -/
def buildInstr (op : Op) (rd rs1 rs2 re : Fin 16) (imm : Imm16) : Instr :=
  match op with
  | .XLD => .xld rd
  | .XLI => .xli rd imm
  | .XRD => .xrd rs1
  | .VZERO => .vzero rd imm
  | .VWR => .vwr rd rs1 imm
  | .VRD => .vrd rd rs1 imm
  | .VLEN => .vlen rd rs1
  | .VMOV => .vmov rd rs1
  | .VPAD => .vpad rd rs1 imm
  | .ADDS => .adds rd re rs1 rs2
  | .SUBS => .subs rd re rs1 rs2
  | .MULS => .muls rd rs1 rs2
  | .CMP => .cmp rd rs1 rs2
  | .EQ => .eq rd rs1 rs2
  | .ADD => .add rd re rs1 rs2
  | .SUB => .sub rd re rs1 rs2
  | .MULSC => .mulsc rd rs1 rs2
  | .MUL => .mul rd rs1 rs2
  | .DIV => .div rd re rs1 rs2
  | .SHL => .shl rd rs1 rs2
  | .SHR => .shr rd rs1 rs2
  | .SHRF => .shrf rd rs1 rs2 re
  | .LZC => .lzc rd rs1
  | .TZC => .tzc rd rs1
  | .BWID => .bwid rd rs1
  | .AND => .and rd rs1 rs2
  | .OR => .or rd rs1 rs2
  | .XOR => .xor rd rs1 rs2
  | .NOT => .not rd rs1

/-- R77: every register field the row does not use is 0 (`rs2` and `re` exist in format R only). -/
def unusedFieldsZero (r : OpRow) (w : Word32) : Bool :=
  (r.rd || cmdRd w == 0) && (r.rs1 || cmdRs1 w == 0) &&
    (r.fmt == .I || ((r.rs2 || cmdRs2 w == 0) && (r.re || cmdRe w == 0)))

/-- R82, line by line: total on every word, on a block built with `LOGIC_PRESENT = logic`. -/
def decode (logic : Bool) (w : Word32) : Except Illegal Instr :=
  match opRow (cmdOpcode w) with
  | none => .error .unknownOpcode
  | some r =>
    if logicOps.contains r.op && !logic then .error .logicAbsent
    else if r.fmt == .R && cmdZ w != 0 then .error .nonzeroZ
    else if !unusedFieldsZero r w then .error .nonzeroUnusedField
    else if twoDestOps.contains r.op && cmdRd w == cmdRe w then .error .sameDestTwice
    else .ok (buildInstr r.op (cmdRd w) (cmdRs1 w) (cmdRs2 w) (cmdRe w) (cmdImm w))

/-! ## The encoder (R72, R73, R78, R83) -/

/-- Format R (R72): `z = 0`, `re`, `rs2`, `rs1`, `rd`, `opcode`, bit 31 on the left. -/
def formatR (code : Byte) (rd rs1 rs2 re : Fin 16) : Word32 :=
  (0#8 ++ BitVec.ofFin (w := 4) re ++ BitVec.ofFin (w := 4) rs2 ++ BitVec.ofFin (w := 4) rs1 ++
    BitVec.ofFin (w := 4) rd ++ code : BitVec (8 + 4 + 4 + 4 + 4 + 8))

/-- Format I (R73): `imm16`, `rs1`, `rd`, `opcode`, bit 31 on the left. -/
def formatI (code : Byte) (rd rs1 : Fin 16) (imm : Imm16) : Word32 :=
  (imm ++ BitVec.ofFin (w := 4) rs1 ++ BitVec.ofFin (w := 4) rd ++ code : BitVec (16 + 4 + 4 + 8))

/-- The word of a command: R78's opcode, R83's operand order, R77's zeros. -/
def encode : Instr → Word32
  | .xld xd => formatR 0x01 xd 0 0 0
  | .xli xd imm => formatI 0x02 xd 0 imm
  | .xrd xs => formatR 0x03 0 xs 0 0
  | .vzero vd len => formatI 0x04 vd 0 len
  | .vwr vd xs idx => formatI 0x05 vd xs idx
  | .vrd xd vs idx => formatI 0x06 xd vs idx
  | .vlen xd vs => formatR 0x07 xd vs 0 0
  | .vmov vd vs => formatR 0x08 vd vs 0 0
  | .vpad vd vs len => formatI 0x09 vd vs len
  | .adds xsum xcarry xa xb => formatR 0x10 xsum xa xb xcarry
  | .subs xdiff xborrow xa xb => formatR 0x11 xdiff xa xb xborrow
  | .muls vd xa xb => formatR 0x12 vd xa xb 0
  | .cmp xd va vb => formatR 0x18 xd va vb 0
  | .eq xd va vb => formatR 0x19 xd va vb 0
  | .add vd xovf va vb => formatR 0x20 vd va vb xovf
  | .sub vd xovf va vb => formatR 0x21 vd va vb xovf
  | .mulsc vd xa vb => formatR 0x28 vd xa vb 0
  | .mul vd va vb => formatR 0x29 vd va vb 0
  | .div vq vr va vb => formatR 0x30 vq va vb vr
  | .shl vd vs xt => formatR 0x38 vd vs xt 0
  | .shr vd vs xt => formatR 0x39 vd vs xt 0
  | .shrf vd vs xt xf => formatR 0x3A vd vs xt xf
  | .lzc xd vs => formatR 0x3C xd vs 0 0
  | .tzc xd vs => formatR 0x3D xd vs 0 0
  | .bwid xd vs => formatR 0x3E xd vs 0 0
  | .and vd va vb => formatR 0x40 vd va vb 0
  | .or vd va vb => formatR 0x41 vd va vb 0
  | .xor vd va vb => formatR 0x42 vd va vb 0
  | .not vd va => formatR 0x43 vd va 0 0

/-! ## The host's numbering -/

/-- What the decoder reads from an instruction whose low `nbits` bits are `w`, every higher bit being 0 (a command is one
32-bit word, R70). The build is that of `State.reset`, with the logic unit (log entry 2). -/
def decodeTableWord (nbits w : Nat) : Option Instr :=
  (decode Params.vectors.logicPresent (BitVec.ofNat 32 (w % 2 ^ nbits))).toOption

end Sys2Proof
end

