-- ==== Sys2Proof/Machine/Numbers.lean ====
section
/-!
DEFINITION. Numbers (spec/00_scope.md R8, R10, R13, R14): values, `num_n`, `zeros`, `padRight`, `digitShiftUp`, the per-digit
zero counts, and the digit a shift reads (spec/45_shift.md R201). `W` is an argument throughout.
-/

namespace Sys2Proof.Machine

/-- `MAXD = 2^W - 1` (R8). -/
def maxd (W : Nat) : Nat := 2 ^ W - 1

/-- `val(N)` (R10): the sum of `dig[i] * 2^(W*i)`. -/
def val (W : Nat) : Number → Nat
  | [] => 0
  | d :: ds => d + 2 ^ W * val W ds

/-- `num_n(v)` (R10): the number of length `n` whose value is `v mod 2^(W*n)`, digit `i` being `floor(v / 2^(W*i)) mod 2^W`. -/
def num (W : Nat) : Nat → Nat → Number
  | 0, _ => []
  | n + 1, v => v % 2 ^ W :: num W n (v / 2 ^ W)

/-- `zeros(n)` (R10). -/
def zeros (n : Nat) : Number := List.replicate n 0

/-- `padRight(N, m)` for `m >= N.len` (R14): high zero digits up to length `m`. -/
def padRight (N : Number) (m : Nat) : Number := N ++ zeros (m - N.length)

/-- `digitShiftUp(N, k)` (R14): digits move up `k` places, the length stays. -/
def digitShiftUp (N : Number) (k : Nat) : Number := (zeros k ++ N).take N.length

/-- `lzc(d)` (R13, "from general knowledge" there: log entry 10): the zero bits above the highest set bit, `W` for 0. -/
def lzcDigit (W d : Nat) : Nat := if d = 0 then W else W - 1 - Nat.log2 d

/-- The zero bits below the lowest set bit among the low `k` bits of `d`, `k` if there is none. -/
def tzcBelow : Nat → Nat → Nat
  | 0, _ => 0
  | k + 1, d => if d % 2 = 1 then 0 else 1 + tzcBelow k (d / 2)

/-- `tzc(d)` (R13, log entry 10): the zero bits below the lowest set bit, `W` for 0. -/
def tzcDigit (W d : Nat) : Nat := tzcBelow W d

/-- `src(N, j)` (R201): digit `j` of `N`, and `out` for every `j` that is no digit index. -/
def srcDigit (N : Number) (out : Nat) (j : Int) : Nat :=
  if 0 ≤ j ∧ j < N.length then N.getD j.toNat out else out

end Sys2Proof.Machine
end

