-- ==== Sys2Proof/Machine/Flags.lean ====
section
/-!
DEFINITION. Carry, borrow, overflow and the comparison result. The core has no flags register (spec/10_state.md R26): each is
a result of the function that computes it, 0 or 1 (or a code of spec/41_compare.md R120), and the command writes it to the
register it names.
-/

namespace Sys2Proof.Machine

/-! ## Scalar digits (spec/40_scalar.md) -/

/-- `addScalars(a, b)` (R100): the sum modulo `2^W` and the carry. -/
def addScalars (W : Nat) (a b : Nat) : Nat × Nat :=
  let t := a + b
  (t % 2 ^ W, if t > maxd W then 1 else 0)

/-- `subtractScalars(a, b)` (R101): the difference modulo `2^W`, a non-negative remainder, and the borrow. -/
def subtractScalars (W : Nat) (a b : Nat) : Nat × Nat :=
  ((((a : Int) - b) % (2 ^ W : Nat)).toNat, if a < b then 1 else 0)

/-- `multiplyScalars(a, b)` (R102): the exact product as `[low, high]`. -/
def multiplyScalars (W : Nat) (a b : Nat) : Number := [a * b % 2 ^ W, a * b / 2 ^ W]

/-! ## Carry and borrow propagation (spec/42_addsub.md) -/

/-- The loop of R140 from running carry `c` upward: the remaining result digits and the final carry. -/
def sumFrom (W : Nat) : Nat → Number → Number → Number × Nat
  | c, a :: as, b :: bs =>
    let (t, ca) := addScalars W a c
    let (r, cb) := addScalars W t b
    let (rs, ov) := sumFrom W (ca + cb) as bs
    (r :: rs, ov)
  | c, _, _ => ([], c)

/-- `sum(A, B)` for operands of equal length (R140): the result and the overflow. -/
def sum (W : Nat) (A B : Number) : Number × Nat := sumFrom W 0 A B

/-- The loop of R143 from running borrow `w` upward: the remaining result digits and the final borrow. -/
def subtractFrom (W : Nat) : Nat → Number → Number → Number × Nat
  | w, a :: as, b :: bs =>
    let (t, ba) := subtractScalars W a w
    let (r, bb) := subtractScalars W t b
    let (rs, ov) := subtractFrom W (ba + bb) as bs
    (r :: rs, ov)
  | w, _, _ => ([], w)

/-- `subtract(A, B)` for operands of equal length (R143): the result and the overflow. -/
def subtract (W : Nat) (A B : Number) : Number × Nat := subtractFrom W 0 A B

/-! ## Comparison (spec/41_compare.md) -/

/-- The three results of `compare` (R120). -/
inductive Comparison where
  | lessThan
  | equal
  | greaterThan
deriving DecidableEq, Repr

/-- The scan of R120 over two digit lists that stand most significant digit first. -/
def compareScan : List Nat → List Nat → Comparison
  | a :: as, b :: bs => if a > b then .greaterThan else if a < b then .lessThan else compareScan as bs
  | _, _ => .equal

/-- `compare(A, B)` for operands of equal length (R120): the scan from the most significant digit down. -/
def compareNum (A B : Number) : Comparison := compareScan A.reverse B.reverse

/-- The 64-bit code of a comparison result (R120, D9). -/
def comparisonCode : Comparison → Word64
  | .lessThan => -1
  | .equal => 0
  | .greaterThan => 1

/-- `numbersEqual(A, B)` (R122): equal lengths and equal digits. -/
def numbersEqual : Number → Number → Bool
  | [], [] => true
  | a :: as, b :: bs => a == b && numbersEqual as bs
  | [], _ :: _ => false
  | _ :: _, [] => false

/-- A flag as a scalar register holds it (spec/10_state.md R25): 0 or 1. -/
def flagWord (b : Bool) : Word64 := if b then 1 else 0

end Sys2Proof.Machine
end

