-- ==== Sys2Proof/Machine/State.lean ====
section
/-!
DEFINITION. The state of PKK-CORE (spec/10_state.md R20), the ports the host drives (R40), and the state after reset (R36 to
R39). There is no memory, no program counter and no flags register (R26, R29, R50).
-/

namespace Sys2Proof.Machine

/-- The fault codes of spec/60_exceptions.md R300. `FAULT_CODE` holds one of them and nothing else (R28): the codes `0x08`
to `0xFF` are never written. -/
inductive FaultCode where
  | none
  | illegalCmd
  | lenMismatch
  | divByZero
  | capacity
  | index
  | digitRange
  | padLength
deriving DecidableEq, Repr

/-- What the host does with an offer that a step does not accept (spec/70_reset_and_hazards.md R354; log entry 3). -/
inductive Waiting where
  /-- It holds `cmd`, `din` and `cmd_valid = 1` unchanged until the command is accepted, as R354 requires. -/
  | hold
  /-- It holds all three for `after` more steps and then drops `cmd_valid`: the command is not accepted (R41). -/
  | withdraw (after : Nat)
  /-- It holds all three for `after` more steps and then changes `cmd` or `din` with `cmd_valid` still 1, which R354 calls
  unspecified behaviour. -/
  | change (after : Nat)
deriving DecidableEq, Repr

/-- What the host offers on the command port (R40, R41). -/
inductive Offer where
  /-- `cmd_valid = 0` for one step: no command is offered. -/
  | idle
  /-- `cmd_valid = 1` with this `cmd` and `din`; `waiting` says what the host does while the command is not accepted. -/
  | command (cmd : Word32) (din : Word64) (waiting : Waiting)
deriving DecidableEq, Repr

/-- The state. -/
structure State where
  /-- `W`, `CAP` and `LOGIC_PRESENT` (spec/00_scope.md R7), fixed when the block is built: no step changes them. The
  model's own field (log entry 1). -/
  params : Params
  /-- The number registers `V0` to `V15` (R21). -/
  v : Vector Number 16
  /-- The scalar registers `X0` to `X15` (R24). -/
  x : Vector Word64 16
  /-- The data-out register (R27). -/
  dout : Word64
  /-- `FAULTED` (R28, R30). -/
  faulted : Bool
  /-- `FAULT_CODE` (R28), the 8-bit code of R300. -/
  faultCode : FaultCode
  /-- `FAULT_CMD` (R28). -/
  faultCmd : Word32
  /-- What the host offers on the command port: the head stands there now, the rest follows (log entry 3). Beyond the list
  nothing is offered. The model's own field. -/
  offers : List Offer
  /-- The level of the `rst` input at this step (the head) and at the coming steps (log entry 4). Beyond the list it is 0.
  The model's own field. -/
  rst : List Bool
deriving DecidableEq, Repr

/-- Why the machine stops. No command's meaning stops: the faults of R300 are fault entries (R305), which are next states. -/
inductive Fault where
  /-- The host changed `cmd` or `din` of its offer while `cmd_valid = 1` and `cmd_ready = 0`: "unspecified behaviour" (R354),
  for which the spec gives no effect (log entry 5). Raised by `step` alone. Safe: the model stops where the hardware goes
  on. -/
  | offerChanged
deriving DecidableEq, Repr

/-- Why a command has no meaning. -/
inductive Refusal where
  /-- The command of this mnemonic has no meaning in the model yet; raised by a refused arm of `exec`. Safe. Every command
  of the table has a meaning, so no arm raises it. -/
  | notModelled (mnemonic : String)
deriving DecidableEq, Repr

/-- The state right after reset of a block built with these parameters (R36 to R39, spec/70_reset_and_hazards.md R341),
before the host offers anything. -/
def State.resetWith (p : Params) : State :=
  { params := p
    v := Vector.replicate 16 []
    x := Vector.replicate 16 0
    dout := 0
    faulted := false
    faultCode := .none
    faultCmd := 0
    offers := []
    rst := [] }

/-- The state right after reset of the build the spec's vectors use (log entry 2). -/
def State.reset : State := State.resetWith Params.vectors

end Sys2Proof.Machine
end

