-- ==== Sys2Proof/Machine/Ops.lean ====
section
/-!
DEFINITION. The named operations over the state: reading and writing registers (spec/00_scope.md R11), the command on the
port, taking a fault (spec/60_exceptions.md R305) and, beside it, reset, the only way out of one (R308).
-/

namespace Sys2Proof.Machine

/-- What a meaning answers. -/
abbrev Result := Host.Outcome State Fault Refusal

/-- Apply `f` to the next state, if there is one. -/
def mapNext (f : State → State) : Result → Result
  | .next s => .next (f s)
  | .fault r => .fault r
  | .refused r => .refused r

/-! ## Registers (R11) -/

/-- `V[r]`. -/
def State.readV (s : State) (r : VReg) : Number := s.v[r]

/-- `X[r]`. -/
def State.readX (s : State) (r : XReg) : Word64 := s.x[r]

/-- `V[r] <- N`: the length and all the digits (spec/10_state.md R23). -/
def State.writeV (s : State) (r : VReg) (N : Number) : State := { s with v := s.v.set r N }

/-- `X[r] <- w`. -/
def State.writeX (s : State) (r : XReg) (w : Word64) : State := { s with x := s.x.set r w }

/-- `DOUT <- w`. -/
def State.writeDout (s : State) (w : Word64) : State := { s with dout := w }

/-! ## The command on the port (R40, R41) -/

/-- The `cmd` word of the offered command. With no command offered nothing reads it, and the model says 0 (log entry 12). -/
def State.cmd (s : State) : Word32 :=
  match s.offers with
  | .command c _ _ :: _ => c
  | .idle :: _ => 0
  | [] => 0

/-- The `DIN` word of the offered command (log entry 12 when none is offered). -/
def State.din (s : State) : Word64 :=
  match s.offers with
  | .command _ d _ :: _ => d
  | .idle :: _ => 0
  | [] => 0

/-! ## Faults and reset -/

/-- The 8-bit code of R300. -/
def FaultCode.code : FaultCode → Byte
  | .none => 0x00
  | .illegalCmd => 0x01
  | .lenMismatch => 0x02
  | .divByZero => 0x03
  | .capacity => 0x04
  | .index => 0x05
  | .digitRange => 0x06
  | .padLength => 0x07

/-- Fault entry (R305): `FAULTED`, `FAULT_CODE` and `FAULT_CMD` are written and nothing else changes (R304). -/
def State.takeFault (s : State) (c : FaultCode) : State :=
  { s with faulted := true, faultCode := c, faultCmd := s.cmd }

/-- Reset (spec/70_reset_and_hazards.md R341): every register and status field at its reset value; what the block was built
with and what the host drives are not the core's to reset. -/
def State.applyReset (s : State) : State :=
  { State.resetWith s.params with offers := s.offers, rst := s.rst }

/-- `raise Fault(c)` (R306): the command ends at once with the fault entry, which is a next state. -/
def raise (c : FaultCode) (s : State) : Result := .next (s.takeFault c)

/-- A check of a command's pseudocode: the command goes on with `k` when `ok` holds and raises `c` otherwise. -/
def require (ok : Prop) [Decidable ok] (c : FaultCode) (s : State) (k : Result) : Result :=
  if ok then k else raise c s

/-- R80 case 4, R85: a command that names one register twice as a destination is illegal. The decoder never gives one
(log entry 8). -/
def requireDistinct (d e : Fin 16) (s : State) (k : Result) : Result :=
  require (d ≠ e) .illegalCmd s k

/-- R80 case 5, R86: without the logic unit its commands are illegal. The decoder never gives one then (log entry 8). -/
def requireLogic (s : State) (k : Result) : Result :=
  require s.params.logicPresent .illegalCmd s k

end Sys2Proof.Machine
end

