-- ==== Sys2Proof/Machine/Operands.lean ====
section
/-!
DEFINITION. The operand forms (spec/10_state.md R25, spec/30_encoding.md R74): a scalar register read as a digit
(spec/60_exceptions.md R312), as a signed shift count (spec/45_shift.md R200), the immediate as a value (as a length or an index it is `imm.toNat`), and
the results as scalar registers hold them.
-/

namespace Sys2Proof.Machine

/-- R312: the register has no bit set above `W-1`; at `W = 64` there is no such bit. -/
def State.digitOk (s : State) (r : XReg) : Bool :=
  !(s.params.W < 64 && (s.readX r).toNat >>> s.params.W != 0)

/-- The digit in bits `W-1:0` of the register (R25). -/
def State.digitValue (s : State) (r : XReg) : Nat := (s.readX r).toNat % 2 ^ s.params.W

/-- `digit(r)` (R312): raise `DIGIT_RANGE`, or go on with the digit. -/
def withDigit (r : XReg) (s : State) (k : Nat → Result) : Result :=
  require (s.digitOk r) .digitRange s (k (s.digitValue r))

/-- `sint_64(X[r])` (R9, R200). -/
def State.shiftCount (s : State) (r : XReg) : Int := (s.readX r).toInt

/-- `zext_64(imm)` (R74). -/
def immWord (imm : Imm16) : Word64 := imm.setWidth 64

/-- `zext_64` of a digit, a flag or a count (R9, R25). -/
def zext64 (n : Nat) : Word64 := BitVec.ofNat 64 n

end Sys2Proof.Machine
end

