-- ==== Sys2Proof/Machine/AddSub.lean ====
section
/-!
DEFINITION. The multi-digit adder and subtractor (spec/42_addsub.md): ADD, SUB. Overflow is a result, never a fault (R301).
-/

namespace Sys2Proof.Machine

/-- `ADD vd, xovf, va, vb` (R142). -/
def execAdd (vd : VReg) (xovf : XReg) (va vb : VReg) (s : State) : Result :=
  let A := s.readV va
  let B := s.readV vb
  require (A.length = B.length) .lenMismatch s <|
    let r := sum s.params.W A B
    .next ((s.writeV vd r.1).writeX xovf (zext64 r.2))

/-- `SUB vd, xovf, va, vb` (R145). -/
def execSub (vd : VReg) (xovf : XReg) (va vb : VReg) (s : State) : Result :=
  let A := s.readV va
  let B := s.readV vb
  require (A.length = B.length) .lenMismatch s <|
    let r := subtract s.params.W A B
    .next ((s.writeV vd r.1).writeX xovf (zext64 r.2))

end Sys2Proof.Machine
end

