-- ==== Sys2Proof/Machine/Compare.lean ====
section
/-!
DEFINITION. The comparator and the equality test (spec/41_compare.md): CMP, EQ.
-/

namespace Sys2Proof.Machine

/-- `CMP xd, va, vb` (R121): `LEN_MISMATCH`, or the code of the comparison. -/
def execCmp (xd : XReg) (va vb : VReg) (s : State) : Result :=
  let A := s.readV va
  let B := s.readV vb
  require (A.length = B.length) .lenMismatch s (.next (s.writeX xd (comparisonCode (compareNum A B))))

/-- `EQ xd, va, vb` (R123): lengths that differ give 0, never a fault. -/
def execEq (xd : XReg) (va vb : VReg) (s : State) : Result :=
  .next (s.writeX xd (flagWord (numbersEqual (s.readV va) (s.readV vb))))

end Sys2Proof.Machine
end

