-- ==== Sys2Proof/Machine/Shift.lean ====
section
/-!
DEFINITION. The bit shifter and the bit counts (spec/45_shift.md): SHL, SHR, SHRF, LZC, TZC, BWID.
-/

namespace Sys2Proof.Machine

/-! ## Shift functions -/

/-- A digit composed from two adjacent source digits at misalignment `r` (R202, R203, R206): `hi` is the more significant
one, `lo` the less significant one, and the digit is the `W` bits that stand `r` bits above the bottom of `lo`. -/
def composeRight (W : Nat) (hi lo : Nat) (r : Nat) : Nat :=
  if r = 0 then lo else (lo >>> r) ||| ((hi <<< (W - r)) % 2 ^ W)

/-- The digit composed by the left shift at misalignment `r` (R203). -/
def composeLeft (W : Nat) (hi lo : Nat) (r : Nat) : Nat :=
  if r = 0 then hi else ((hi <<< r) % 2 ^ W) ||| (lo >>> (W - r))

/-- The digit loop of R202 and R206, `out` standing for every source digit out of bounds. -/
def shiftRightDigits (W : Nat) (N : Number) (out : Nat) (t : Nat) : Number :=
  let q := t / W
  let r := t % W
  (List.range N.length).map fun d =>
    composeRight W (srcDigit N out ((d : Int) + q + 1)) (srcDigit N out ((d : Int) + q)) r

/-- The digit loop of R203. -/
def shiftLeftDigits (W : Nat) (N : Number) (t : Nat) : Number :=
  let q := t / W
  let r := t % W
  (List.range N.length).map fun d =>
    composeLeft W (srcDigit N 0 ((d : Int) - q)) (srcDigit N 0 ((d : Int) - q - 1)) r

/-- R202 for a count `t >= 0`. -/
def shiftRightBy (W : Nat) (N : Number) (t : Nat) : Number :=
  if t ≥ W * N.length then zeros N.length else shiftRightDigits W N 0 t

/-- R203 for a count `t >= 0`. -/
def shiftLeftBy (W : Nat) (N : Number) (t : Nat) : Number :=
  if t ≥ W * N.length then zeros N.length else shiftLeftDigits W N t

/-- `bitShiftRight(N, t)` (R202): a negative count delegates to the opposite direction, on mathematical integers (R200). -/
def bitShiftRight (W : Nat) (N : Number) (t : Int) : Number :=
  if t < 0 then shiftLeftBy W N (-t).toNat else shiftRightBy W N t.toNat

/-- `bitShiftLeft(N, t)` (R203). -/
def bitShiftLeft (W : Nat) (N : Number) (t : Int) : Number :=
  if t < 0 then shiftRightBy W N (-t).toNat else shiftLeftBy W N t.toNat

/-- `bitShiftRightFill(N, t, f)` (R206): no early result for large counts; a negative count leaves the fill unused. -/
def bitShiftRightFill (W : Nat) (N : Number) (t : Int) (f : Nat) : Number :=
  if t < 0 then shiftLeftBy W N (-t).toNat else shiftRightDigits W N f t.toNat

/-! ## Bit counts -/

/-- The scan of R210 and R212 over digits in scanning order: per-digit counts summed up to the first nonzero digit. -/
def countScan (count : Nat → Nat) : List Nat → Nat
  | [] => 0
  | d :: ds => if d = 0 then count d + countScan count ds else count d

/-- `numberLeadingZeroBitCount(N)` (R210), from the most significant digit down. -/
def numberLeadingZeroBitCount (W : Nat) (N : Number) : Nat := countScan (lzcDigit W) N.reverse

/-- `numberTrailingZeroBitCount(N)` (R212), from the least significant digit up. -/
def numberTrailingZeroBitCount (W : Nat) (N : Number) : Nat := countScan (tzcDigit W) N

/-- `numberBitWidth(N)` (R214). -/
def numberBitWidth (W : Nat) (N : Number) : Nat := W * N.length

/-! ## Commands -/

/-- `SHL vd, vs, xt` (R204): every count has a result. -/
def execShl (vd vs : VReg) (xt : XReg) (s : State) : Result :=
  .next (s.writeV vd (bitShiftLeft s.params.W (s.readV vs) (s.shiftCount xt)))

/-- `SHR vd, vs, xt` (R205). -/
def execShr (vd vs : VReg) (xt : XReg) (s : State) : Result :=
  .next (s.writeV vd (bitShiftRight s.params.W (s.readV vs) (s.shiftCount xt)))

/-- `SHRF vd, vs, xt, xf` (R207): the fill digit is range-checked for every count. -/
def execShrf (vd vs : VReg) (xt xf : XReg) (s : State) : Result :=
  withDigit xf s fun f =>
    .next (s.writeV vd (bitShiftRightFill s.params.W (s.readV vs) (s.shiftCount xt) f))

/-- `LZC xd, vs` (R211). -/
def execLzc (xd : XReg) (vs : VReg) (s : State) : Result :=
  .next (s.writeX xd (zext64 (numberLeadingZeroBitCount s.params.W (s.readV vs))))

/-- `TZC xd, vs` (R213). -/
def execTzc (xd : XReg) (vs : VReg) (s : State) : Result :=
  .next (s.writeX xd (zext64 (numberTrailingZeroBitCount s.params.W (s.readV vs))))

/-- `BWID xd, vs` (R215). -/
def execBwid (xd : XReg) (vs : VReg) (s : State) : Result :=
  .next (s.writeX xd (zext64 (numberBitWidth s.params.W (s.readV vs))))

end Sys2Proof.Machine
end

