-- ==== Sys2Proof/Machine/Divide.lean ====
section
/-!
DEFINITION. The divider (spec/44_divide.md): DIV by its normative result (R180, R181), and the bisection of R182 that
computes it, which the spec says fixes no observable state.
-/

namespace Sys2Proof.Machine

/-- The quotient of R180, of the operands' length. -/
def quotient (W : Nat) (A B : Number) : Number := num W A.length (val W A / val W B)

/-- The remainder of R180, of the operands' length. -/
def remainder (W : Nat) (A B : Number) : Number := num W A.length (val W A % val W B)

/-- `DIV vq, vr, va, vb` (R181): `LEN_MISMATCH`, then `DIV_BY_ZERO`, else quotient and remainder. -/
def execDiv (vq vr va vb : VReg) (s : State) : Result :=
  requireDistinct vq vr s <|
    let A := s.readV va
    let B := s.readV vb
    require (A.length = B.length) .lenMismatch s <|
      require (val s.params.W B ≠ 0) .divByZero s
        (.next ((s.writeV vq (quotient s.params.W A B)).writeV vr (remainder s.params.W A B)))

/-! ## The bisection (R182) -/

/-- The bounds at the loop head of R182. -/
structure Bounds where
  l : Nat
  u : Nat
deriving DecidableEq, Repr

/-- The midpoint strictly between the bounds (R182, spec/90_conflicts.md C1). -/
def midpoint (l u : Nat) : Nat := l + ((u - l) >>> 1)

/-- The loop of R182 on exact integers, at most `fuel` times: the quotient and the remainder. -/
def bisect (a b : Nat) : Nat → Bounds → Nat × Nat
  | 0, p => (p.l, a - p.l * b)
  | fuel + 1, p =>
    if p.u - p.l > 1 then
      let m := midpoint p.l p.u
      let t : Int := (a : Int) - m * b
      if t = 0 then (m, 0)
      else if t > 0 then bisect a b fuel { p with l := m }
      else bisect a b fuel { p with u := m }
    else (p.l, a - p.l * b)

/-- The highest set-bit index of the divisor, `W*n - 1 - numberLeadingZeroBitCount(B)` (R182). -/
def topBit (W : Nat) (B : Number) : Nat := W * B.length - 1 - numberLeadingZeroBitCount W B

/-- The initial bounds of R182. -/
def initialBounds (W : Nat) (A B : Number) : Bounds :=
  { l := val W A >>> (topBit W B + 1), u := (val W A >>> topBit W B) + 1 }

/-- `divide(A, B)` of R182 for `val(B) >= 2`, its loop run at most `W * n` times (R184). -/
def divideBisect (W : Nat) (A B : Number) : Number × Number :=
  let r := bisect (val W A) (val W B) (W * A.length) (initialBounds W A B)
  (num W A.length r.1, num W A.length r.2)

end Sys2Proof.Machine
end

