-- ==== Sys2Proof/Machine/Logic.lean ====
section
/-!
DEFINITION. The optional digit-wise logic unit (spec/46_logic.md): AND, OR, XOR, NOT.
-/

namespace Sys2Proof.Machine

/-- R230 for a binary operator on operands of equal length: digit by digit. -/
def digitwise (op : Nat → Nat → Nat) (A B : Number) : Number := List.zipWith op A B

/-- The shared form of the binary commands (R231): legal only with the unit, `LEN_MISMATCH`, then digit by digit. -/
def logicBinary (op : Nat → Nat → Nat) (vd va vb : VReg) (s : State) : Result :=
  requireLogic s <|
    let A := s.readV va
    let B := s.readV vb
    require (A.length = B.length) .lenMismatch s (.next (s.writeV vd (digitwise op A B)))

/-- `AND vd, va, vb` (R231). -/
def execAnd (vd va vb : VReg) (s : State) : Result := logicBinary (· &&& ·) vd va vb s

/-- `OR vd, va, vb` (R232). -/
def execOr (vd va vb : VReg) (s : State) : Result := logicBinary (· ||| ·) vd va vb s

/-- `XOR vd, va, vb` (R233). -/
def execXor (vd va vb : VReg) (s : State) : Result := logicBinary (· ^^^ ·) vd va vb s

/-- `NOT vd, va` (R234): `MAXD - dig[i]`; unary, so no length check. -/
def execNot (vd va : VReg) (s : State) : Result :=
  requireLogic s (.next (s.writeV vd ((s.readV va).map fun d => maxd s.params.W - d)))

end Sys2Proof.Machine
end

