-- ==== Sys2Proof/Machine/Multiply.lean ====
section
/-!
DEFINITION. The scalar-by-number and schoolbook multipliers (spec/43_multiply.md): MULSC, MUL.
-/

namespace Sys2Proof.Machine

/-- The loop of R160 from running carry `c` upward; the final carry is the extra high digit. -/
def multiplyByScalarFrom (W : Nat) (a : Nat) : Nat → Number → Number
  | c, [] => [c]
  | c, b :: bs =>
    let lo := a * b % 2 ^ W
    let hi := a * b / 2 ^ W
    let r := addScalars W lo c
    r.1 :: multiplyByScalarFrom W a (hi + r.2) bs

/-- `multiplyByScalar(a, B)` (R160): a number of length `B.len + 1`. -/
def multiplyByScalar (W : Nat) (a : Nat) (B : Number) : Number := multiplyByScalarFrom W a 0 B

/-- Row `i` of R163: the digit's product with `B`, padded to length `2n` and moved up `i` digits. -/
def multiplyRow (W : Nat) (A B : Number) (i : Nat) : Number :=
  digitShiftUp (padRight (multiplyByScalar W (A.getD i 0) B) (2 * A.length)) i

/-- `multiply(A, B)` for operands of equal length (R163): the rows accumulated by `sum`, whose overflow is always 0 (R164). -/
def multiply (W : Nat) (A B : Number) : Number :=
  (List.range A.length).foldl (fun P i => (sum W P (multiplyRow W A B i)).1) (zeros (2 * A.length))

/-- `MULSC vd, xa, vb` (R162): the digit check, then `CAPACITY`. -/
def execMulsc (vd : VReg) (xa : XReg) (vb : VReg) (s : State) : Result :=
  withDigit xa s fun a =>
    let B := s.readV vb
    require (B.length + 1 ≤ s.params.cap) .capacity s (.next (s.writeV vd (multiplyByScalar s.params.W a B)))

/-- `MUL vd, va, vb` (R165): `LEN_MISMATCH`, then `CAPACITY`. -/
def execMul (vd va vb : VReg) (s : State) : Result :=
  let A := s.readV va
  let B := s.readV vb
  require (A.length = B.length) .lenMismatch s <|
    require (2 * A.length ≤ s.params.cap) .capacity s (.next (s.writeV vd (multiply s.params.W A B)))

end Sys2Proof.Machine
end

