-- ==== Sys2Proof/Machine/Scalar.lean ====
section
/-!
DEFINITION. The scalar digit commands (spec/40_scalar.md): ADDS, SUBS, MULS. Both digit operands are checked before anything
else after decode (spec/60_exceptions.md R302, R312).
-/

namespace Sys2Proof.Machine

/-- `ADDS xsum, xcarry, xa, xb` (R103). -/
def execAdds (xsum xcarry xa xb : XReg) (s : State) : Result :=
  requireDistinct xsum xcarry s <|
    withDigit xa s fun a => withDigit xb s fun b =>
      let r := addScalars s.params.W a b
      .next ((s.writeX xsum (zext64 r.1)).writeX xcarry (zext64 r.2))

/-- `SUBS xdiff, xborrow, xa, xb` (R104). -/
def execSubs (xdiff xborrow xa xb : XReg) (s : State) : Result :=
  requireDistinct xdiff xborrow s <|
    withDigit xa s fun a => withDigit xb s fun b =>
      let r := subtractScalars s.params.W a b
      .next ((s.writeX xdiff (zext64 r.1)).writeX xborrow (zext64 r.2))

/-- `MULS vd, xa, xb` (R105): a number of length 2; no `CAPACITY` check, since `CAP >= 2` (R8). -/
def execMuls (vd : VReg) (xa xb : XReg) (s : State) : Result :=
  withDigit xa s fun a => withDigit xb s fun b =>
    .next (s.writeV vd (multiplyScalars s.params.W a b))

end Sys2Proof.Machine
end

