-- ==== Sys2Proof/Machine/Transfer.lean ====
section
/-!
DEFINITION. The operand transfer commands (spec/47_transfer.md): XLD, XLI, XRD, VZERO, VWR, VRD, VLEN, VMOV, VPAD.
-/

namespace Sys2Proof.Machine

/-- `XLD xd` (R250): `X[rd] <- DIN`. -/
def execXld (xd : XReg) (s : State) : Result := .next (s.writeX xd s.din)

/-- `XLI xd, imm` (R251): `X[rd] <- zext_64(imm)`. -/
def execXli (xd : XReg) (imm : Imm16) (s : State) : Result := .next (s.writeX xd (immWord imm))

/-- `XRD xs` (R252): `DOUT <- X[rs1]`. -/
def execXrd (xs : XReg) (s : State) : Result := .next (s.writeDout (s.readX xs))

/-- `VZERO vd, len` (R253): `CAPACITY` above `CAP`, else zeros of the given length. -/
def execVzero (vd : VReg) (len : Imm16) (s : State) : Result :=
  require (len.toNat ≤ s.params.cap) .capacity s (.next (s.writeV vd (zeros len.toNat)))

/-- `VWR vd, xs, idx` (R254): the digit check, then `INDEX`, then one digit written and the rest of the number kept. -/
def execVwr (vd : VReg) (xs : XReg) (idx : Imm16) (s : State) : Result :=
  withDigit xs s fun d =>
    require (idx.toNat < (s.readV vd).length) .index s
      (.next (s.writeV vd ((s.readV vd).set idx.toNat d)))

/-- `VRD xd, vs, idx` (R255): `INDEX`, or `X[rd] <- zext_64(V[rs1].dig[k])`. -/
def execVrd (xd : XReg) (vs : VReg) (idx : Imm16) (s : State) : Result :=
  require (idx.toNat < (s.readV vs).length) .index s
    (.next (s.writeX xd (zext64 ((s.readV vs).getD idx.toNat 0))))

/-- `VLEN xd, vs` (R256): `X[rd] <- zext_64(V[rs1].len)`. -/
def execVlen (xd : XReg) (vs : VReg) (s : State) : Result :=
  .next (s.writeX xd (zext64 (s.readV vs).length))

/-- `VMOV vd, vs` (R257): `V[rd] <- V[rs1]`. -/
def execVmov (vd vs : VReg) (s : State) : Result := .next (s.writeV vd (s.readV vs))

/-- `VPAD vd, vs, len` (R258): `PAD_LENGTH` below the source length, then `CAPACITY` above `CAP`, else `padRight`. -/
def execVpad (vd vs : VReg) (len : Imm16) (s : State) : Result :=
  let N := s.readV vs
  require (N.length ≤ len.toNat) .padLength s
    (require (len.toNat ≤ s.params.cap) .capacity s (.next (s.writeV vd (padRight N len.toNat))))

end Sys2Proof.Machine
end

