-- ==== Sys2Proof/Machine/Dispatch.lean ====
section
/-!
DEFINITION. exec: one arm per command, each one call of its meaning.
-/

namespace Sys2Proof.Machine

/-- Perform a decoded command on the state whose port offers it (spec/70_reset_and_hazards.md R350). -/
def exec (i : Instr) (s : State) : Host.Outcome State Fault Refusal :=
  match i with
  | .xld xd => Sys2Proof.Machine.execXld xd s
  | .xli xd imm => Sys2Proof.Machine.execXli xd imm s
  | .xrd xs => Sys2Proof.Machine.execXrd xs s
  | .vzero vd len => Sys2Proof.Machine.execVzero vd len s
  | .vwr vd xs idx => Sys2Proof.Machine.execVwr vd xs idx s
  | .vrd xd vs idx => Sys2Proof.Machine.execVrd xd vs idx s
  | .vlen xd vs => Sys2Proof.Machine.execVlen xd vs s
  | .vmov vd vs => Sys2Proof.Machine.execVmov vd vs s
  | .vpad vd vs len => Sys2Proof.Machine.execVpad vd vs len s
  | .adds xsum xcarry xa xb => Sys2Proof.Machine.execAdds xsum xcarry xa xb s
  | .subs xdiff xborrow xa xb => Sys2Proof.Machine.execSubs xdiff xborrow xa xb s
  | .muls vd xa xb => Sys2Proof.Machine.execMuls vd xa xb s
  | .cmp xd va vb => Sys2Proof.Machine.execCmp xd va vb s
  | .eq xd va vb => Sys2Proof.Machine.execEq xd va vb s
  | .add vd xovf va vb => Sys2Proof.Machine.execAdd vd xovf va vb s
  | .sub vd xovf va vb => Sys2Proof.Machine.execSub vd xovf va vb s
  | .mulsc vd xa vb => Sys2Proof.Machine.execMulsc vd xa vb s
  | .mul vd va vb => Sys2Proof.Machine.execMul vd va vb s
  | .div vq vr va vb => Sys2Proof.Machine.execDiv vq vr va vb s
  | .shl vd vs xt => Sys2Proof.Machine.execShl vd vs xt s
  | .shr vd vs xt => Sys2Proof.Machine.execShr vd vs xt s
  | .shrf vd vs xt xf => Sys2Proof.Machine.execShrf vd vs xt xf s
  | .lzc xd vs => Sys2Proof.Machine.execLzc xd vs s
  | .tzc xd vs => Sys2Proof.Machine.execTzc xd vs s
  | .bwid xd vs => Sys2Proof.Machine.execBwid xd vs s
  | .and vd va vb => Sys2Proof.Machine.execAnd vd va vb s
  | .or vd va vb => Sys2Proof.Machine.execOr vd va vb s
  | .xor vd va vb => Sys2Proof.Machine.execXor vd va vb s
  | .not vd va => Sys2Proof.Machine.execNot vd va s

end Sys2Proof.Machine
end

