-- ==== Sys2Proof/Machine/Ports.lean ====
section
/-!
DEFINITION. The ports of the core (spec/10_state.md R40 to R43, spec/70_reset_and_hazards.md R340, R354, R357): what the outputs
show, and how a step takes what the host drives.
-/

namespace Sys2Proof.Machine

/-! ## Outputs -/

/-- `stat` (R28, R43): `FAULT_CMD` in 63:32, `FAULT_CODE` in 15:8, `FAULTED` in 0, reserved bits 0. -/
def State.stat (s : State) : Word64 :=
  (s.faultCmd ++ 0#16 ++ s.faultCode.code ++ 0#7 ++ BitVec.ofBool s.faulted : BitVec (32 + 16 + 8 + 7 + 1))

/-- The `dout` port (R42) shows `DOUT`. -/
def State.doutPort (s : State) : Word64 := s.dout

/-- The level of `rst` at this step (R340). -/
def State.rstLevel (s : State) : Bool := s.rst.headD false

/-- `cmd_ready` between commands (R41, R307, R340): 0 while `rst = 1` and while `FAULTED = 1`. That it is also 0 while a
command is being performed is timing inside one step (log entry 7). -/
def State.cmdReady (s : State) : Bool := !s.rstLevel && !s.faulted

/-- `cmd_valid`: a command stands on the port (R40). -/
def State.cmdValid (s : State) : Bool :=
  match s.offers with
  | .command _ _ _ :: _ => true
  | .idle :: _ => false
  | [] => false

/-! ## Inputs -/

/-- The host breaks R354 at this step: `cmd` or `din` changes while `cmd_valid = 1` and `cmd_ready = 0` (log entry 5). An offer
withdrawn by dropping `cmd_valid` breaks nothing. -/
def State.offerChanges (s : State) : Bool :=
  match s.offers with
  | .command _ _ (.change 0) :: _ => !s.cmdReady
  | .command _ _ .hold :: _ | .command _ _ (.withdraw _) :: _ | .command _ _ (.change (_ + 1)) :: _ => false
  | .idle :: _ => false
  | [] => false

/-- What the host offers after a step that accepted no command (log entry 3): a held command stays (R354, R307), a withdrawn
one leaves the port idle, so that it is never accepted (R41), and an idle step has passed. -/
def waitingOffers : List Offer → List Offer
  | .command c d .hold :: rest => .command c d .hold :: rest
  | .command _ _ (.withdraw 0) :: rest => .idle :: rest
  | .command c d (.withdraw (n + 1)) :: rest => .command c d (.withdraw n) :: rest
  | .command c d (.change 0) :: rest => .command c d (.change 0) :: rest
  | .command c d (.change (n + 1)) :: rest => .command c d (.change n) :: rest
  | .idle :: rest => rest
  | [] => []

/-- The run of the host's command sequence has ended (R357): every command of it has been accepted and completed, or a command
has faulted. Its result is the register state, `DOUT` and `stat` as they stand. DESIGN CHOICE (log entry 16): R357 says nothing of
a sequence whose last command the host withdraws unaccepted, or of an empty one; here the run has ended once nothing but idle
steps is left to offer. -/
def State.runEnded (s : State) : Bool := s.faulted || s.offers.all (· == .idle)

/-- One step of the host's time passes on the `rst` input. -/
def State.tick (s : State) : State := { s with rst := s.rst.tail }

/-- The offer at the head of the port is over: its command has been accepted. -/
def State.dropOffer (s : State) : State := { s with offers := s.offers.tail }

/-- The port after a step that accepted no command. -/
def State.keepOffer (s : State) : State := { s with offers := waitingOffers s.offers }

end Sys2Proof.Machine
end

