-- ==== Sys2Proof/Machine/Step.lean ====
section
/-!
DEFINITION. One step of the core: it takes the command the port offers, if it is ready for one, and performs it whole
(spec/70_reset_and_hazards.md R350). There is no program counter: commands come from the port (spec/10_state.md R29, R41).
-/

namespace Sys2Proof.Machine

/-- Perform the command on the port: an illegal word raises `ILLEGAL_CMD` with no other effect (R80). -/
def State.perform (s : State) : Host.Outcome State Fault Refusal :=
  match decode s.params.logicPresent s.cmd with
  | .error _ => raise .illegalCmd s
  | .ok i => exec i s

/-- One step. A host that changes its offer while `cmd_ready = 0` gets unspecified behaviour (R354). With `rst = 1` the state is
the reset state (R340, R341; log entry 4). Else an offered command is accepted and performed when `FAULTED = 0` (R41; log
entry 11 if it faults), and stays unaccepted while `FAULTED = 1` (R307), held or withdrawn by the host. With no command offered
the core is idle and keeps its state (R317). -/
def step (s : State) : Host.Outcome State Fault Refusal :=
  if s.offerChanges then .fault .offerChanged
  else if s.rstLevel then .next s.applyReset.keepOffer.tick
  else if s.cmdValid && s.cmdReady then mapNext (fun t => t.dropOffer.tick) s.perform
  else .next s.keepOffer.tick

/-- The state whose next step takes the command word `w` (its low `nbits` bits, the others 0): the host offers it first, with
`DIN = 0`, and does not assert `rst` at that step. A faulted core accepts nothing (R307), and this does not change that.
Log entry 13. -/
def State.withFetchWord (s : State) (nbits w : Nat) : State :=
  { s with
    offers := .command (BitVec.ofNat 32 (w % 2 ^ nbits)) 0 .hold :: s.offers
    rst := false :: s.rst.tail }

end Sys2Proof.Machine
end

