-- ==== Sys2Proof/Machine/Assembler.lean ====
section
/-!
DEFINITION. The assembly syntax (spec/30_encoding.md R83) and its one pseudo-instruction (R84): the text of a command, and the
reading of a line as the command the host offers. Text is a list of characters. Log entry 14 says what R83 leaves open.
-/

namespace Sys2Proof.Machine

/-- An operand as R83 writes it: `v0` to `v15`, `x0` to `x15`, or an immediate. -/
inductive AsmOperand where
  | v (r : VReg)
  | x (r : XReg)
  | imm (n : Nat)
deriving DecidableEq, Repr

/-- The mnemonics (R78). -/
def mnemonicChars : Op → List Char
  | .XLD => ['X', 'L', 'D']
  | .XLI => ['X', 'L', 'I']
  | .XRD => ['X', 'R', 'D']
  | .VZERO => ['V', 'Z', 'E', 'R', 'O']
  | .VWR => ['V', 'W', 'R']
  | .VRD => ['V', 'R', 'D']
  | .VLEN => ['V', 'L', 'E', 'N']
  | .VMOV => ['V', 'M', 'O', 'V']
  | .VPAD => ['V', 'P', 'A', 'D']
  | .ADDS => ['A', 'D', 'D', 'S']
  | .SUBS => ['S', 'U', 'B', 'S']
  | .MULS => ['M', 'U', 'L', 'S']
  | .CMP => ['C', 'M', 'P']
  | .EQ => ['E', 'Q']
  | .ADD => ['A', 'D', 'D']
  | .SUB => ['S', 'U', 'B']
  | .MULSC => ['M', 'U', 'L', 'S', 'C']
  | .MUL => ['M', 'U', 'L']
  | .DIV => ['D', 'I', 'V']
  | .SHL => ['S', 'H', 'L']
  | .SHR => ['S', 'H', 'R']
  | .SHRF => ['S', 'H', 'R', 'F']
  | .LZC => ['L', 'Z', 'C']
  | .TZC => ['T', 'Z', 'C']
  | .BWID => ['B', 'W', 'I', 'D']
  | .AND => ['A', 'N', 'D']
  | .OR => ['O', 'R']
  | .XOR => ['X', 'O', 'R']
  | .NOT => ['N', 'O', 'T']

/-! ## Writing -/

/-- The mnemonic and the operands of a command, in R83's order. -/
def asmParts : Instr → Op × List AsmOperand
  | .xld xd => (.XLD, [.x xd])
  | .xli xd imm => (.XLI, [.x xd, .imm imm.toNat])
  | .xrd xs => (.XRD, [.x xs])
  | .vzero vd len => (.VZERO, [.v vd, .imm len.toNat])
  | .vwr vd xs idx => (.VWR, [.v vd, .x xs, .imm idx.toNat])
  | .vrd xd vs idx => (.VRD, [.x xd, .v vs, .imm idx.toNat])
  | .vlen xd vs => (.VLEN, [.x xd, .v vs])
  | .vmov vd vs => (.VMOV, [.v vd, .v vs])
  | .vpad vd vs len => (.VPAD, [.v vd, .v vs, .imm len.toNat])
  | .adds xsum xcarry xa xb => (.ADDS, [.x xsum, .x xcarry, .x xa, .x xb])
  | .subs xdiff xborrow xa xb => (.SUBS, [.x xdiff, .x xborrow, .x xa, .x xb])
  | .muls vd xa xb => (.MULS, [.v vd, .x xa, .x xb])
  | .cmp xd va vb => (.CMP, [.x xd, .v va, .v vb])
  | .eq xd va vb => (.EQ, [.x xd, .v va, .v vb])
  | .add vd xovf va vb => (.ADD, [.v vd, .x xovf, .v va, .v vb])
  | .sub vd xovf va vb => (.SUB, [.v vd, .x xovf, .v va, .v vb])
  | .mulsc vd xa vb => (.MULSC, [.v vd, .x xa, .v vb])
  | .mul vd va vb => (.MUL, [.v vd, .v va, .v vb])
  | .div vq vr va vb => (.DIV, [.v vq, .v vr, .v va, .v vb])
  | .shl vd vs xt => (.SHL, [.v vd, .v vs, .x xt])
  | .shr vd vs xt => (.SHR, [.v vd, .v vs, .x xt])
  | .shrf vd vs xt xf => (.SHRF, [.v vd, .v vs, .x xt, .x xf])
  | .lzc xd vs => (.LZC, [.x xd, .v vs])
  | .tzc xd vs => (.TZC, [.x xd, .v vs])
  | .bwid xd vs => (.BWID, [.x xd, .v vs])
  | .and vd va vb => (.AND, [.v vd, .v va, .v vb])
  | .or vd va vb => (.OR, [.v vd, .v va, .v vb])
  | .xor vd va vb => (.XOR, [.v vd, .v va, .v vb])
  | .not vd va => (.NOT, [.v vd, .v va])

/-- An operand's text; immediates in decimal. -/
def asmOperandChars : AsmOperand → List Char
  | .v r => 'v' :: Nat.toDigits 10 r.val
  | .x r => 'x' :: Nat.toDigits 10 r.val
  | .imm n => Nat.toDigits 10 n

/-- A command's text (R83): the mnemonic, a space, the operands separated by commas. -/
def asmText (i : Instr) : List Char :=
  mnemonicChars (asmParts i).1 ++ ' ' :: List.intercalate [',', ' '] ((asmParts i).2.map asmOperandChars)

/-! ## Reading -/

/-- The command of a mnemonic and its operands (R83); an immediate has 16 bits (R74). -/
def asmInstr : Op → List AsmOperand → Option Instr
  | .XLD, [.x xd] => some (.xld xd)
  | .XLI, [.x xd, .imm n] => if n < 65536 then some (.xli xd (BitVec.ofNat 16 n)) else none
  | .XRD, [.x xs] => some (.xrd xs)
  | .VZERO, [.v vd, .imm n] => if n < 65536 then some (.vzero vd (BitVec.ofNat 16 n)) else none
  | .VWR, [.v vd, .x xs, .imm n] => if n < 65536 then some (.vwr vd xs (BitVec.ofNat 16 n)) else none
  | .VRD, [.x xd, .v vs, .imm n] => if n < 65536 then some (.vrd xd vs (BitVec.ofNat 16 n)) else none
  | .VLEN, [.x xd, .v vs] => some (.vlen xd vs)
  | .VMOV, [.v vd, .v vs] => some (.vmov vd vs)
  | .VPAD, [.v vd, .v vs, .imm n] => if n < 65536 then some (.vpad vd vs (BitVec.ofNat 16 n)) else none
  | .ADDS, [.x xsum, .x xcarry, .x xa, .x xb] => some (.adds xsum xcarry xa xb)
  | .SUBS, [.x xdiff, .x xborrow, .x xa, .x xb] => some (.subs xdiff xborrow xa xb)
  | .MULS, [.v vd, .x xa, .x xb] => some (.muls vd xa xb)
  | .CMP, [.x xd, .v va, .v vb] => some (.cmp xd va vb)
  | .EQ, [.x xd, .v va, .v vb] => some (.eq xd va vb)
  | .ADD, [.v vd, .x xovf, .v va, .v vb] => some (.add vd xovf va vb)
  | .SUB, [.v vd, .x xovf, .v va, .v vb] => some (.sub vd xovf va vb)
  | .MULSC, [.v vd, .x xa, .v vb] => some (.mulsc vd xa vb)
  | .MUL, [.v vd, .v va, .v vb] => some (.mul vd va vb)
  | .DIV, [.v vq, .v vr, .v va, .v vb] => some (.div vq vr va vb)
  | .SHL, [.v vd, .v vs, .x xt] => some (.shl vd vs xt)
  | .SHR, [.v vd, .v vs, .x xt] => some (.shr vd vs xt)
  | .SHRF, [.v vd, .v vs, .x xt, .x xf] => some (.shrf vd vs xt xf)
  | .LZC, [.x xd, .v vs] => some (.lzc xd vs)
  | .TZC, [.x xd, .v vs] => some (.tzc xd vs)
  | .BWID, [.x xd, .v vs] => some (.bwid xd vs)
  | .AND, [.v vd, .v va, .v vb] => some (.and vd va vb)
  | .OR, [.v vd, .v va, .v vb] => some (.or vd va vb)
  | .XOR, [.v vd, .v va, .v vb] => some (.xor vd va vb)
  | .NOT, [.v vd, .v va] => some (.not vd va)
  | _, _ => none

/-- The value of a digit character, hexadecimal letters in either case. -/
def charValue (c : Char) : Option Nat :=
  if '0' ≤ c ∧ c ≤ '9' then some (c.toNat - '0'.toNat)
  else if 'a' ≤ c ∧ c ≤ 'f' then some (c.toNat - 'a'.toNat + 10)
  else if 'A' ≤ c ∧ c ≤ 'F' then some (c.toNat - 'A'.toNat + 10)
  else none

/-- The digits of a number in the given base, after the value read so far. -/
def readDigits (base : Nat) : Nat → List Char → Option Nat
  | acc, [] => some acc
  | acc, c :: cs =>
    match charValue c with
    | some d => if d < base then readDigits base (acc * base + d) cs else none
    | none => none

/-- A number: decimal, or hexadecimal with a `0x` prefix (R83). DESIGN CHOICE (log entry 14): leading zeros are read too, and
`0x` without a digit is refused. -/
def readNumber : List Char → Option Nat
  | [] => none
  | ['0', 'x'] => none
  | '0' :: 'x' :: cs => readDigits 16 0 cs
  | cs => readDigits 10 0 cs

/-- A register number 0 to 15 in decimal. DESIGN CHOICE (log entry 14): R83 gives the names `v0`-`v15` and `x0`-`x15` only, and
leading zeros are read here too, `v03` as `v3` and `x010` as `x10`. -/
def readRegister (cs : List Char) : Option (Fin 16) :=
  match cs with
  | [] => none
  | _ :: _ =>
    match readDigits 10 0 cs with
    | some n => if h : n < 16 then some ⟨n, h⟩ else none
    | none => none

/-- One operand (R83). -/
def readOperand : List Char → Option AsmOperand
  | 'v' :: cs => (readRegister cs).map .v
  | 'x' :: cs => (readRegister cs).map .x
  | cs => (readNumber cs).map .imm

/-- The text without spaces at its two ends. -/
def trimSpaces (cs : List Char) : List Char :=
  ((cs.dropWhile (· == ' ')).reverse.dropWhile (· == ' ')).reverse

/-- The pieces of a text between commas. -/
def splitCommas : List Char → List (List Char)
  | [] => [[]]
  | c :: cs =>
    match splitCommas cs with
    | [] => [[c]]
    | p :: ps => if c = ',' then [] :: p :: ps else (c :: p) :: ps

/-- The command of a line's code, `CLRX xd` standing for `XLI xd, 0` (R84). -/
def readInstr (code : List Char) : Option Instr :=
  let name := code.takeWhile (· != ' ')
  let operands := (splitCommas (code.dropWhile (· != ' '))).mapM fun p => readOperand (trimSpaces p)
  match operands with
  | none => none
  | some os =>
    if name = ['C', 'L', 'R', 'X'] then
      match os with
      | [.x xd] => some (.xli xd 0)
      | _ => none
    else
      match opcodeMap.find? (fun r => mnemonicChars r.op == name) with
      | some r => asmInstr r.op os
      | none => none

/-- The `DIN` word of an `XLD`, from its comment `din=<value>` (R83). DESIGN CHOICE (log entry 14): the value is written as an
immediate is, and nothing else stands in the comment. -/
def readDin : List Char → Option Word64
  | 'd' :: 'i' :: 'n' :: '=' :: cs =>
    match readNumber cs with
    | some n => if n < 2 ^ 64 then some (BitVec.ofNat 64 n) else none
    | none => none
  | _ => none

/-- One line as the command the host offers and holds (R83): the code before `;`, and for an `XLD` the `DIN` word in the
comment after it. -/
def assemble (line : List Char) : Option Offer :=
  let comment := trimSpaces ((line.dropWhile (· != ';')).drop 1)
  match readInstr (trimSpaces (line.takeWhile (· != ';'))) with
  | none => none
  | some (.xld xd) => (readDin comment).map fun d => .command (encode (.xld xd)) d .hold
  | some i => some (.command (encode i) 0 .hold)

/-- A host's command sequence, one command per line (R83). -/
def assembleProgram (lines : List (List Char)) : Option (List Offer) := lines.mapM assemble

end Sys2Proof.Machine
end

