-- ==== Sys2Proof/Safety.lean ====
section
/-!
DEFINITION. The terms claims are stated in: numbers and states a build can hold (the invariant), the frame of a command, the
fault a command reports (spec/60_exceptions.md R302), and which words are illegal (spec/30_encoding.md R80), each written from
the spec's rule and not from the model's functions.
-/

namespace Sys2Proof.Machine

/-! ## The invariant -/

/-- A sequence of `W`-bit digits (spec/00_scope.md R10). -/
abbrev DigitsOk (W : Nat) (N : Number) : Prop := ∀ d ∈ N, d < 2 ^ W

/-- A number a register of the build can hold (spec/10_state.md R21): at most `CAP` digits of `W` bits. -/
abbrev NumberOk (p : Params) (N : Number) : Prop := N.length ≤ p.cap ∧ DigitsOk p.W N

/-- What every state of a run satisfies: a build R7 allows, register contents it can hold (R21), and status fields that agree
(R28: `FAULT_CODE` is `NONE` and `FAULT_CMD` is 0 exactly while `FAULTED = 0`; a fault taken has a code). -/
structure State.Inv (s : State) : Prop where
  params : s.params.Valid
  numbers : ∀ r : VReg, NumberOk s.params (s.readV r)
  running : s.faulted = false → s.faultCode = .none ∧ s.faultCmd = 0
  stopped : s.faulted = true → s.faultCode ≠ .none

/-! ## Frames -/

/-- Everything but the named registers is as before: every other number and scalar register, `DOUT`, the status fields, the
build and what the host drives. -/
structure Frame (vs : List VReg) (xs : List XReg) (s t : State) : Prop where
  numbers : ∀ r : VReg, r ∉ vs → t.readV r = s.readV r
  scalars : ∀ r : XReg, r ∉ xs → t.readX r = s.readX r
  dout : t.dout = s.dout
  faulted : t.faulted = s.faulted
  faultCode : t.faultCode = s.faultCode
  faultCmd : t.faultCmd = s.faultCmd
  params : t.params = s.params
  offers : t.offers = s.offers
  rst : t.rst = s.rst

/-- The number registers a command may write (the "dest" entries of R78). -/
def vDests : Instr → List VReg
  | .vzero d _ | .vwr d _ _ | .vmov d _ | .vpad d _ _ | .muls d _ _ | .add d _ _ _ | .sub d _ _ _ | .mulsc d _ _
  | .mul d _ _ | .shl d _ _ | .shr d _ _ | .shrf d _ _ _ | .and d _ _ | .or d _ _ | .xor d _ _ | .not d _ => [d]
  | .div q r _ _ => [q, r]
  | .xld _ | .xli _ _ | .xrd _ | .vrd _ _ _ | .vlen _ _ | .adds _ _ _ _ | .subs _ _ _ _ | .cmp _ _ _ | .eq _ _ _
  | .lzc _ _ | .tzc _ _ | .bwid _ _ => []

/-- The scalar registers a command may write (the "dest" entries of R78). -/
def xDests : Instr → List XReg
  | .xld d | .xli d _ | .vrd d _ _ | .vlen d _ | .cmp d _ _ | .eq d _ _ | .lzc d _ | .tzc d _ | .bwid d _
  | .add _ d _ _ | .sub _ d _ _ => [d]
  | .adds d e _ _ | .subs d e _ _ => [d, e]
  | .xrd _ | .vzero _ _ | .vwr _ _ _ | .vmov _ _ | .vpad _ _ _ | .muls _ _ _ | .mulsc _ _ _ | .mul _ _ _
  | .div _ _ _ _ | .shl _ _ _ | .shr _ _ _ | .shrf _ _ _ _ | .and _ _ _ | .or _ _ _ | .xor _ _ _ | .not _ _ => []

/-! ## Which fault a command reports (R300, R302) -/

/-- The scalar operands a command reads as digits (R300, "raised by" of `DIGIT_RANGE`). -/
def digitOperands : Instr → List XReg
  | .adds _ _ a b | .subs _ _ a b | .muls _ a b => [a, b]
  | .mulsc _ a _ | .shrf _ _ _ a | .vwr _ a _ => [a]
  | .xld _ | .xli _ _ | .xrd _ | .vzero _ _ | .vrd _ _ _ | .vlen _ _ | .vmov _ _ | .vpad _ _ _ | .cmp _ _ _ | .eq _ _ _
  | .add _ _ _ _ | .sub _ _ _ _ | .mul _ _ _ | .div _ _ _ _ | .shl _ _ _ | .shr _ _ _ | .lzc _ _ | .tzc _ _ | .bwid _ _
  | .and _ _ _ | .or _ _ _ | .xor _ _ _ | .not _ _ => []

/-- The number operands that must have equal length (R300, "raised by" of `LEN_MISMATCH`). -/
def equalLengthOperands : Instr → Option (VReg × VReg)
  | .cmp _ a b | .add _ _ a b | .sub _ _ a b | .mul _ a b | .div _ _ a b | .and _ a b | .or _ a b | .xor _ a b =>
    some (a, b)
  | .xld _ | .xli _ _ | .xrd _ | .vzero _ _ | .vwr _ _ _ | .vrd _ _ _ | .vlen _ _ | .vmov _ _ | .vpad _ _ _ | .adds _ _ _ _
  | .subs _ _ _ _ | .muls _ _ _ | .eq _ _ _ | .mulsc _ _ _ | .shl _ _ _ | .shr _ _ _ | .shrf _ _ _ _ | .lzc _ _ | .tzc _ _
  | .bwid _ _ | .not _ _ => none

/-- A digit index and the register it indexes (R300, "raised by" of `INDEX`). -/
def indexOperand : Instr → Option (VReg × Nat)
  | .vwr d _ k => some (d, k.toNat)
  | .vrd _ v k => some (v, k.toNat)
  | .xld _ | .xli _ _ | .xrd _ | .vzero _ _ | .vlen _ _ | .vmov _ _ | .vpad _ _ _ | .adds _ _ _ _ | .subs _ _ _ _
  | .muls _ _ _ | .cmp _ _ _ | .eq _ _ _ | .add _ _ _ _ | .sub _ _ _ _ | .mulsc _ _ _ | .mul _ _ _ | .div _ _ _ _
  | .shl _ _ _ | .shr _ _ _ | .shrf _ _ _ _ | .lzc _ _ | .tzc _ _ | .bwid _ _ | .and _ _ _ | .or _ _ _ | .xor _ _ _
  | .not _ _ => none

/-- The length a command asks for or its result takes (R300, "raised by" of `CAPACITY`). -/
def requestedLength (i : Instr) (s : State) : Option Nat :=
  match i with
  | .vzero _ m | .vpad _ _ m => some m.toNat
  | .mulsc _ _ b => some ((s.readV b).length + 1)
  | .mul _ a _ => some (2 * (s.readV a).length)
  | .xld _ | .xli _ _ | .xrd _ | .vwr _ _ _ | .vrd _ _ _ | .vlen _ _ | .vmov _ _ | .adds _ _ _ _ | .subs _ _ _ _
  | .muls _ _ _ | .cmp _ _ _ | .eq _ _ _ | .add _ _ _ _ | .sub _ _ _ _ | .div _ _ _ _ | .shl _ _ _ | .shr _ _ _
  | .shrf _ _ _ _ | .lzc _ _ | .tzc _ _ | .bwid _ _ | .and _ _ _ | .or _ _ _ | .xor _ _ _ | .not _ _ => none

/-- A pad length and the register padded (R300, "raised by" of `PAD_LENGTH`). -/
def padOperand : Instr → Option (VReg × Nat)
  | .vpad _ v m => some (v, m.toNat)
  | .xld _ | .xli _ _ | .xrd _ | .vzero _ _ | .vwr _ _ _ | .vrd _ _ _ | .vlen _ _ | .vmov _ _ | .adds _ _ _ _
  | .subs _ _ _ _ | .muls _ _ _ | .cmp _ _ _ | .eq _ _ _ | .add _ _ _ _ | .sub _ _ _ _ | .mulsc _ _ _ | .mul _ _ _
  | .div _ _ _ _ | .shl _ _ _ | .shr _ _ _ | .shrf _ _ _ _ | .lzc _ _ | .tzc _ _ | .bwid _ _ | .and _ _ _ | .or _ _ _
  | .xor _ _ _ | .not _ _ => none

/-- The divisor (R300, "raised by" of `DIV_BY_ZERO`). -/
def divisorOperand : Instr → Option VReg
  | .div _ _ _ b => some b
  | .xld _ | .xli _ _ | .xrd _ | .vzero _ _ | .vwr _ _ _ | .vrd _ _ _ | .vlen _ _ | .vmov _ _ | .vpad _ _ _ | .adds _ _ _ _
  | .subs _ _ _ _ | .muls _ _ _ | .cmp _ _ _ | .eq _ _ _ | .add _ _ _ _ | .sub _ _ _ _ | .mulsc _ _ _ | .mul _ _ _
  | .shl _ _ _ | .shr _ _ _ | .shrf _ _ _ _ | .lzc _ _ | .tzc _ _ | .bwid _ _ | .and _ _ _ | .or _ _ _ | .xor _ _ _
  | .not _ _ => none

/-- Whether the condition of a fault code holds for a command in a state (R300). -/
def faultCondition (c : FaultCode) (i : Instr) (s : State) : Bool :=
  match c with
  | .none => false
  | .illegalCmd => !i.wellFormed s.params.logicPresent
  | .digitRange => (digitOperands i).any fun r => decide (2 ^ s.params.W ≤ (s.readX r).toNat)
  | .lenMismatch => (equalLengthOperands i).any fun (a, b) => (s.readV a).length != (s.readV b).length
  | .index => (indexOperand i).any fun (r, k) => decide ((s.readV r).length ≤ k)
  | .padLength => (padOperand i).any fun (r, m) => decide (m < (s.readV r).length)
  | .capacity => (requestedLength i s).any fun m => decide (s.params.cap < m)
  | .divByZero => (divisorOperand i).any fun r => (s.readV r).all (· == 0)

/-- The order of R302. -/
def faultOrder : List FaultCode :=
  [.illegalCmd, .digitRange, .lenMismatch, .index, .padLength, .capacity, .divByZero]

/-- The one fault a command reports (R302): the first, in that order, whose condition holds. -/
def firstFault (i : Instr) (s : State) : Option FaultCode := faultOrder.find? fun c => faultCondition c i s

/-! ## Illegal words (R80) -/

/-- The opcodes of R78. -/
def knownOpcodes : List Nat :=
  [0x01, 0x02, 0x03, 0x04, 0x05, 0x06, 0x07, 0x08, 0x09, 0x10, 0x11, 0x12, 0x18, 0x19, 0x20, 0x21, 0x28, 0x29, 0x30, 0x38,
    0x39, 0x3A, 0x3C, 0x3D, 0x3E, 0x40, 0x41, 0x42, 0x43]

/-- The opcodes of format I (R75). -/
def formatIOpcodes : List Nat := [0x02, 0x04, 0x05, 0x06, 0x09]

/-- The opcodes whose `rd` is `-` in R78. -/
def rdUnused : List Nat := [0x03]

/-- The opcodes whose `rs1` is `-` in R78. -/
def rs1Unused : List Nat := [0x01, 0x02, 0x04]

/-- The opcodes of format R whose `rs2` is `-` in R78. -/
def rs2Unused : List Nat := [0x01, 0x03, 0x07, 0x08, 0x3C, 0x3D, 0x3E, 0x43]

/-- The opcodes of format R whose `re` is `-` in R78. -/
def reUnused : List Nat :=
  [0x01, 0x03, 0x07, 0x08, 0x12, 0x18, 0x19, 0x28, 0x29, 0x38, 0x39, 0x3C, 0x3D, 0x3E, 0x40, 0x41, 0x42, 0x43]

/-- Bits `hi` down to `lo` of a command word as an unsigned integer (spec/00_scope.md R9). -/
def bitsOf (w : Word32) (hi lo : Nat) : Nat := w.toNat / 2 ^ lo % 2 ^ (hi + 1 - lo)

/-- The fields of a format R word (spec/30_encoding.md R71, R72), `z` being 0. -/
abbrev FormatRFields (w : Word32) (op rd rs1 rs2 re : Nat) : Prop :=
  bitsOf w 7 0 = op ∧ bitsOf w 11 8 = rd ∧ bitsOf w 15 12 = rs1 ∧ bitsOf w 19 16 = rs2 ∧ bitsOf w 23 20 = re ∧
    bitsOf w 31 24 = 0

/-- The fields of a format I word (R71, R73). -/
abbrev FormatIFields (w : Word32) (op rd rs1 imm : Nat) : Prop :=
  bitsOf w 7 0 = op ∧ bitsOf w 11 8 = rd ∧ bitsOf w 15 12 = rs1 ∧ bitsOf w 31 16 = imm

/-- R80: the five cases of an illegal command word on a block built with `LOGIC_PRESENT = logic`. -/
abbrev IllegalWord (logic : Bool) (w : Word32) : Prop :=
  bitsOf w 7 0 ∉ knownOpcodes ∨
  (bitsOf w 7 0 ∉ formatIOpcodes ∧ bitsOf w 31 24 ≠ 0) ∨
  (bitsOf w 7 0 ∈ rdUnused ∧ bitsOf w 11 8 ≠ 0) ∨
  (bitsOf w 7 0 ∈ rs1Unused ∧ bitsOf w 15 12 ≠ 0) ∨
  (bitsOf w 7 0 ∈ rs2Unused ∧ bitsOf w 19 16 ≠ 0) ∨
  (bitsOf w 7 0 ∈ reUnused ∧ bitsOf w 23 20 ≠ 0) ∨
  (bitsOf w 7 0 ∈ [0x10, 0x11, 0x30] ∧ bitsOf w 11 8 = bitsOf w 23 20) ∨
  (bitsOf w 7 0 ∈ [0x40, 0x41, 0x42, 0x43] ∧ logic = false)

end Sys2Proof.Machine
end

