-- ==== Sys2Proof/Certificates/Slice0/Obligations.lean ====
section
/-!
DEFINITION. The statements for the provers. Each docstring names the rule of spec/ its statement rests on; where a clause is an
inference the spec marks as its own ("[derived: ...]"), or a choice of the model (a log entry), the docstring says so. A result
statement holds under every aliasing of its registers (spec/10_state.md R32): the operands are read from the state before.
-/

open Sys2Proof Sys2Proof.Machine

/-! ## Encoding (spec/30_encoding.md) -/

/-- R87 (which the spec marks as derived from R72, R73, R78): its eight example words decode to the commands they stand for. -/
def Obligations.ExampleWordsDecode : Prop :=
  decode true 0x00310220 = .ok (.add 2 3 0 1) ∧
  decode true 0x00FF0102 = .ok (.xli 1 255) ∧
  decode true 0x00020004 = .ok (.vzero 0 2) ∧
  decode true 0x00011005 = .ok (.vwr 0 1 1) ∧
  decode true 0x00532430 = .ok (.div 4 5 2 3) ∧
  decode true 0x0032013A = .ok (.shrf 1 0 2 3) ∧
  decode true 0x00007003 = .ok (.xrd 7) ∧
  decode true 0x00001143 = .ok (.not 1 1)

/-- R78 with R72, R73, R83: for every command, every word with its opcode, its operands in the fields the map gives them and 0
in every other field decodes to it; opcode 0x00 is illegal. -/
def Obligations.OpcodeMapDecodes : Prop :=
  ∀ (logic : Bool) (w : Word32) (a b c d : Fin 16) (imm : Imm16),
    (bitsOf w 7 0 = 0 → ∃ e, decode logic w = .error e) ∧
    (FormatRFields w 0x01 a 0 0 0 → decode logic w = .ok (.xld a)) ∧
    (FormatIFields w 0x02 a 0 imm.toNat → decode logic w = .ok (.xli a imm)) ∧
    (FormatRFields w 0x03 0 b 0 0 → decode logic w = .ok (.xrd b)) ∧
    (FormatIFields w 0x04 a 0 imm.toNat → decode logic w = .ok (.vzero a imm)) ∧
    (FormatIFields w 0x05 a b imm.toNat → decode logic w = .ok (.vwr a b imm)) ∧
    (FormatIFields w 0x06 a b imm.toNat → decode logic w = .ok (.vrd a b imm)) ∧
    (FormatRFields w 0x07 a b 0 0 → decode logic w = .ok (.vlen a b)) ∧
    (FormatRFields w 0x08 a b 0 0 → decode logic w = .ok (.vmov a b)) ∧
    (FormatIFields w 0x09 a b imm.toNat → decode logic w = .ok (.vpad a b imm)) ∧
    (FormatRFields w 0x10 a b c d → a ≠ d → decode logic w = .ok (.adds a d b c)) ∧
    (FormatRFields w 0x11 a b c d → a ≠ d → decode logic w = .ok (.subs a d b c)) ∧
    (FormatRFields w 0x12 a b c 0 → decode logic w = .ok (.muls a b c)) ∧
    (FormatRFields w 0x18 a b c 0 → decode logic w = .ok (.cmp a b c)) ∧
    (FormatRFields w 0x19 a b c 0 → decode logic w = .ok (.eq a b c)) ∧
    (FormatRFields w 0x20 a b c d → decode logic w = .ok (.add a d b c)) ∧
    (FormatRFields w 0x21 a b c d → decode logic w = .ok (.sub a d b c)) ∧
    (FormatRFields w 0x28 a b c 0 → decode logic w = .ok (.mulsc a b c)) ∧
    (FormatRFields w 0x29 a b c 0 → decode logic w = .ok (.mul a b c)) ∧
    (FormatRFields w 0x30 a b c d → a ≠ d → decode logic w = .ok (.div a d b c)) ∧
    (FormatRFields w 0x38 a b c 0 → decode logic w = .ok (.shl a b c)) ∧
    (FormatRFields w 0x39 a b c 0 → decode logic w = .ok (.shr a b c)) ∧
    (FormatRFields w 0x3A a b c d → decode logic w = .ok (.shrf a b c d)) ∧
    (FormatRFields w 0x3C a b 0 0 → decode logic w = .ok (.lzc a b)) ∧
    (FormatRFields w 0x3D a b 0 0 → decode logic w = .ok (.tzc a b)) ∧
    (FormatRFields w 0x3E a b 0 0 → decode logic w = .ok (.bwid a b)) ∧
    (FormatRFields w 0x40 a b c 0 → decode true w = .ok (.and a b c)) ∧
    (FormatRFields w 0x41 a b c 0 → decode true w = .ok (.or a b c)) ∧
    (FormatRFields w 0x42 a b c 0 → decode true w = .ok (.xor a b c)) ∧
    (FormatRFields w 0x43 a b 0 0 → decode true w = .ok (.not a b))

/-- R82 against the encoder of R72, R73, R78, R83: decoding the word of a well-formed command gives the command back, with
every operand at every value. -/
def Obligations.DecodeOfEncode : Prop :=
  ∀ (logic : Bool) (i : Instr), i.wellFormed logic = true → decode logic (encode i) = .ok i

/-- R81: every word is either the word of one well-formed command or illegal; the other direction of the round trip. -/
def Obligations.LegalWordsEncodeBack : Prop :=
  ∀ (logic : Bool) (w : Word32) (i : Instr),
    decode logic w = .ok i → encode i = w ∧ i.wellFormed logic = true

/-- R80: a word is illegal exactly in the five cases, and performing it raises `ILLEGAL_CMD` with no other effect on the core.
That the faulting command leaves the port and one step of `rst` passes is the model's (log entries 3, 4 and 11). -/
def Obligations.IllegalWordsRaise : Prop :=
  (∀ (logic : Bool) (w : Word32), IllegalWord logic w ↔ ∃ e, decode logic w = .error e) ∧
  (∀ logic : Bool, IllegalWord logic 0x00000000) ∧
  ∀ (s : State) (w : Word32) (din : Word64) (how : Waiting) (rest : List Offer),
    s.offers = .command w din how :: rest → s.rstLevel = false → s.faulted = false →
    IllegalWord s.params.logicPresent w →
    step s = .next { s with
      faulted := true, faultCode := .illegalCmd, faultCmd := w, offers := rest, rst := s.rst.tail }

/-- R83, R84 and log entry 14: the assembler reads what it writes, an `XLD` with its `DIN` comment, and `CLRX xd` as
`XLI xd, 0`. -/
def Obligations.AssemblerReadsItsText : Prop :=
  (∀ i : Instr, (∀ xd, i ≠ .xld xd) → assemble (asmText i) = some (.command (encode i) 0 .hold)) ∧
  (∀ (xd : XReg) (din : Word64),
    assemble (asmText (.xld xd) ++ [' ', ';', ' ', 'd', 'i', 'n', '='] ++ Nat.toDigits 10 din.toNat) =
      some (.command (encode (.xld xd)) din .hold)) ∧
  ∀ xd : XReg, assemble (['C', 'L', 'R', 'X', ' ', 'x'] ++ Nat.toDigits 10 xd.val) =
    some (.command (encode (.xli xd 0)) 0 .hold)

/-! ## Reset, the port and the step (spec/10_state.md, spec/70_reset_and_hazards.md) -/

/-- R36, R37, R38, R39: what reset leaves, on every build. -/
def Obligations.ResetLeavesTheSpecValues : Prop :=
  ∀ p : Params,
    (∀ r : VReg, (State.resetWith p).readV r = [] ∧ val p.W ((State.resetWith p).readV r) = 0) ∧
    (∀ r : XReg, (State.resetWith p).readX r = 0) ∧
    (State.resetWith p).dout = 0 ∧
    (State.resetWith p).faulted = false ∧ (State.resetWith p).faultCode.code = 0 ∧ (State.resetWith p).faultCmd = 0 ∧
    (State.resetWith p).stat = 0

/-- The invariant holds after reset of every build R7 and R8 allow, and of the build of `State.reset` (log entry 2). -/
def Obligations.ResetMeetsTheInvariant : Prop :=
  (∀ p : Params, p.Valid → (State.resetWith p).Inv) ∧ State.reset.Inv

/-- R21, R28, R7: every step keeps the invariant: lengths within `CAP`, digits within `W` bits, status fields that agree. -/
def Obligations.StepKeepsTheInvariant : Prop :=
  ∀ s t : State, s.Inv → step s = .next t → t.Inv

/-- R7: "`W`, `CAP` and `LOGIC_PRESENT` are fixed when the block is built and do not change at run time". -/
def Obligations.StepKeepsTheParameters : Prop :=
  ∀ s t : State, step s = .next t → t.params = s.params

/-- R41, R350 with log entries 3 and 4: when `rst = 0`, `FAULTED = 0` and the offered word decodes to `i`, the step is exec of
`i` on this state, and the offer is over and one step of `rst` has passed. -/
def Obligations.StepPerformsTheOfferedCommand : Prop :=
  ∀ (s : State) (w : Word32) (din : Word64) (how : Waiting) (rest : List Offer) (i : Instr),
    s.offers = .command w din how :: rest → s.rstLevel = false → s.faulted = false →
    decode s.params.logicPresent w = .ok i →
    s.cmdValid = true ∧ s.cmdReady = true ∧ s.cmd = w ∧ s.din = din ∧
    step s = mapNext (fun t => { t with offers := t.offers.tail, rst := t.rst.tail }) (exec i s)

/-- R307: while `FAULTED = 1`, `cmd_ready = 0`, and a command the host offers stays on the port unaccepted (step after step, until
reset: the state after is the same but for the host's own time). The host holds its offer, as R354 requires. That the offer
stays at the head of a list and one step of `rst` passes is the model's choice (log entries 3 and 4). -/
def Obligations.FaultedCoreAcceptsNothing : Prop :=
  ∀ s : State, s.faulted = true →
    s.cmdReady = false ∧
    ∀ (w : Word32) (din : Word64) (rest : List Offer),
      s.rstLevel = false → s.offers = .command w din .hold :: rest → step s = .next { s with rst := s.rst.tail }

/-- R340: with `rst = 1` no command is accepted, and the state is the reset state, in which the core accepts commands once
`rst` is 0 again. That it is the reset state already after a step with `rst = 1`, that a held offer stays and an idle one passes,
and that one step of `rst` passes are the model's (log entries 3 and 4; DEDUCED where R340 speaks of `rst` back at 0). -/
def Obligations.ResetInputResets : Prop :=
  ∀ s : State, s.rstLevel = true → s.offerChanges = false →
    s.cmdReady = false ∧
    ∃ t, step s = .next t ∧
      t = { State.resetWith s.params with offers := waitingOffers s.offers, rst := s.rst.tail } ∧
      (∀ (w : Word32) (din : Word64) (rest : List Offer),
        s.offers = .command w din .hold :: rest → t.offers = s.offers) ∧
      (s.cmdValid = false → t.offers = s.offers.tail) ∧
      (t.rstLevel = false → t.cmdReady = true)

/-- R308: only reset clears the status fields; while `FAULTED = 1` they do not change, so no second fault occurs. That every
register, `DOUT` and status field is at its reset value already after a step with `rst = 1` is the model's (log entry 4, DEDUCED:
R340 speaks of `rst` back at 0). -/
def Obligations.OnlyResetLeavesAFault : Prop :=
  ∀ s t : State, s.faulted = true → step s = .next t →
    (s.rstLevel = false → t.faulted = true ∧ t.faultCode = s.faultCode ∧ t.faultCmd = s.faultCmd) ∧
    (t.faulted = false → s.rstLevel = true ∧
      (∀ r, t.readV r = []) ∧ (∀ r, t.readX r = 0) ∧ t.dout = 0 ∧ t.faultCode = .none ∧ t.faultCmd = 0)

/-- R317: with no command offered and `rst = 0` the core is idle and keeps all its state. That an idle entry of the list of offers
and one step of `rst` pass is the model's choice (log entries 3 and 4). -/
def Obligations.IdleKeepsTheState : Prop :=
  ∀ s : State, s.cmdValid = false → s.rstLevel = false →
    step s = .next { s with offers := s.offers.tail, rst := s.rst.tail }

/-- R354 and log entry 5: a change of `cmd` or `din` while `cmd_valid = 1` and `cmd_ready = 0` is the one case in which a step
answers no next state. -/
def Obligations.StepStopsOnlyOnAChangedOffer : Prop :=
  ∀ s : State,
    (step s = .fault .offerChanged ↔
      ∃ w din rest, s.offers = .command w din (.change 0) :: rest ∧ (s.rstLevel = true ∨ s.faulted = true)) ∧
    (step s = .fault .offerChanged ∨ ∃ t, step s = .next t)

/-- R354, R41: while `cmd_ready = 0` a held offer stays on the port, and one whose host drops `cmd_valid` is never accepted: the
step leaves the port idle. An offer that is to be withdrawn or changed later waits until then. With `rst = 0` nothing but the
host's own time changes. How the host's waiting is held in the list of offers is the model's choice (log entries 3 and 4). -/
def Obligations.UnacceptedOffersWait : Prop :=
  ∀ (s : State) (w : Word32) (din : Word64) (how : Waiting) (rest : List Offer),
    s.offers = .command w din how :: rest → s.cmdReady = false → how ≠ .change 0 →
    ∃ t, step s = .next t ∧
      (how = .hold → t.offers = s.offers) ∧
      (how = .withdraw 0 → t.offers = .idle :: rest ∧ t.cmdValid = false) ∧
      (∀ n, how = .withdraw (n + 1) → t.offers = .command w din (.withdraw n) :: rest) ∧
      (∀ n, how = .change (n + 1) → t.offers = .command w din (.change n) :: rest) ∧
      (s.rstLevel = false → t = { s with offers := t.offers, rst := s.rst.tail })

/-- R28, R43: the layout of `stat`, with the reserved bits 0. -/
def Obligations.StatLayout : Prop :=
  ∀ s : State,
    s.stat.toNat = s.faultCmd.toNat * 2 ^ 32 + s.faultCode.code.toNat * 2 ^ 8 + s.faulted.toNat ∧
    s.faultCode.code.toNat ≤ 7

/-! ## Faults (spec/60_exceptions.md) -/

/-- R302, R305: a command reports the first fault of R302's order whose condition (R300) holds, by the fault entry that changes
the three status fields and nothing else; with no condition it completes with the status as before. It ranges over every term
of `Instr`: that exec of a command no legal word stands for raises `ILLEGAL_CMD` is log entry 8 (DEDUCED). -/
def Obligations.CommandsReportTheFirstFault : Prop :=
  ∀ (i : Instr) (s : State),
    (∀ c, firstFault i s = some c →
      exec i s = .next { s with faulted := true, faultCode := c, faultCmd := s.cmd }) ∧
    (firstFault i s = none → ∃ t, exec i s = .next t ∧
      t.faulted = s.faulted ∧ t.faultCode = s.faultCode ∧ t.faultCmd = s.faultCmd)

/-- R312: reading a scalar register as a digit faults `DIGIT_RANGE` when `W < 64` and a bit above `W-1` is set, and otherwise
gives bits `W-1:0`; and a command that is legal faults so for any of its digit operands, before any other check. -/
def Obligations.DigitReadChecksItsRange : Prop :=
  (∀ (r : XReg) (s : State) (k : Nat → Result),
    withDigit r s k =
      if s.params.W < 64 ∧ (s.readX r).toNat / 2 ^ s.params.W ≠ 0 then
        .next { s with faulted := true, faultCode := .digitRange, faultCmd := s.cmd }
      else k ((s.readX r).toNat % 2 ^ s.params.W)) ∧
  ∀ (i : Instr) (s : State), i.wellFormed s.params.logicPresent = true →
    (∃ r ∈ digitOperands i, s.params.W < 64 ∧ (s.readX r).toNat / 2 ^ s.params.W ≠ 0) →
    exec i s = .next { s with faulted := true, faultCode := .digitRange, faultCmd := s.cmd }

/-- R57, R23: every command that reports no fault writes only the destinations R78 gives it (`XRD` writes `DOUT`). -/
def Obligations.CommandsWriteOnlyTheirDestinations : Prop :=
  ∀ (i : Instr) (s : State), firstFault i s = none →
    ∃ t, exec i s = .next t ∧
      (∀ r : VReg, r ∉ vDests i → t.readV r = s.readV r) ∧
      (∀ r : XReg, r ∉ xDests i → t.readX r = s.readX r) ∧
      ((∀ xs, i ≠ .xrd xs) → t.dout = s.dout) ∧
      t.faulted = s.faulted ∧ t.faultCode = s.faultCode ∧ t.faultCmd = s.faultCmd ∧
      t.params = s.params ∧ t.offers = s.offers ∧ t.rst = s.rst

/-- R27: `dout` shows `DOUT`, no command but `XRD` writes it, and no fault changes it. -/
def Obligations.OnlyXrdWritesDout : Prop :=
  ∀ s : State, s.doutPort = s.dout ∧
    (∀ (i : Instr) (t : State), (∀ xs, i ≠ .xrd xs) → exec i s = .next t → t.dout = s.dout) ∧
    (∀ xs, exec (.xrd xs) s = .next { s with dout := s.readX xs }) ∧
    ∀ t, step s = .next t → s.rstLevel = false → t.dout ≠ s.dout →
      ∃ xs, decode s.params.logicPresent s.cmd = .ok (.xrd xs) ∧ t.dout = s.readX xs

/-- R28: no command reads or writes the status fields: a command that reports no fault does the same whatever they hold. -/
def Obligations.NoCommandReadsTheStatus : Prop :=
  ∀ (i : Instr) (s t : State) (f : Bool) (c : FaultCode) (m : Word32),
    firstFault i s = none → exec i s = .next t →
    exec i { s with faulted := f, faultCode := c, faultCmd := m } =
      .next { t with faulted := f, faultCode := c, faultCmd := m }

/-- R41: "`din` is read only by `XLD`": every other command does the same whatever `din` is. -/
def Obligations.DinIsReadOnlyByXld : Prop :=
  ∀ (i : Instr) (s t : State) (w : Word32) (d e : Word64) (how : Waiting) (rest : List Offer),
    (∀ xd, i ≠ .xld xd) → s.offers = .command w d how :: rest → exec i s = .next t →
    exec i { s with offers := .command w e how :: rest } = .next { t with offers := .command w e how :: rest }

/-! ## Transfer (spec/47_transfer.md) -/

/-- R250, R251: `XLD` loads all of `DIN`, `XLI` the zero-extended immediate. -/
def Obligations.XldAndXliLoadAScalar : Prop :=
  ∀ (xd : XReg) (imm : Imm16) (s : State),
    (∃ t, exec (.xld xd) s = .next t ∧ t.readX xd = s.din ∧ Frame [] [xd] s t) ∧
    (∃ t, exec (.xli xd imm) s = .next t ∧ (t.readX xd).toNat = imm.toNat ∧ Frame [] [xd] s t)

/-- R252: `XRD` drives a scalar register onto `DOUT` and changes nothing else. -/
def Obligations.XrdDrivesDout : Prop :=
  ∀ (xs : XReg) (s : State),
    ∃ t, exec (.xrd xs) s = .next t ∧ t.doutPort = s.readX xs ∧ Frame [] [] s { t with dout := s.dout }

/-- R253: `VZERO` gives the number of the requested length with value 0, or faults `CAPACITY` above `CAP`. -/
def Obligations.VzeroMakesZeros : Prop :=
  ∀ (vd : VReg) (len : Imm16) (s : State),
    (len.toNat ≤ s.params.cap → ∃ t, exec (.vzero vd len) s = .next t ∧
      (t.readV vd).length = len.toNat ∧ (∀ d ∈ t.readV vd, d = 0) ∧ val s.params.W (t.readV vd) = 0 ∧
      Frame [vd] [] s t) ∧
    (s.params.cap < len.toNat →
      exec (.vzero vd len) s = .next { s with faulted := true, faultCode := .capacity, faultCmd := s.cmd })

/-- R254: `VWR` writes one digit and keeps the length and every other digit. -/
def Obligations.VwrWritesOneDigit : Prop :=
  ∀ (vd : VReg) (xs : XReg) (idx : Imm16) (s : State),
    (s.readX xs).toNat < 2 ^ s.params.W → idx.toNat < (s.readV vd).length →
    ∃ t, exec (.vwr vd xs idx) s = .next t ∧ (t.readV vd).length = (s.readV vd).length ∧
      (∀ j, (t.readV vd)[j]? = if j = idx.toNat then some (s.readX xs).toNat else (s.readV vd)[j]?) ∧
      Frame [vd] [] s t

/-- R255: `VRD` reads one digit, zero-extended. -/
def Obligations.VrdReadsOneDigit : Prop :=
  ∀ (xd : XReg) (vs : VReg) (idx : Imm16) (s : State),
    DigitsOk s.params.W (s.readV vs) → idx.toNat < (s.readV vs).length →
    ∃ t, exec (.vrd xd vs idx) s = .next t ∧ (s.readV vs)[idx.toNat]? = some (t.readX xd).toNat ∧ Frame [] [xd] s t

/-- R256, R257: `VLEN` reads a length that a register can have; `VMOV` copies length and digits. -/
def Obligations.VlenAndVmovReadAWholeNumber : Prop :=
  ∀ (xd : XReg) (vd vs : VReg) (s : State),
    ((s.readV vs).length ≤ 65535 →
      ∃ t, exec (.vlen xd vs) s = .next t ∧ (t.readX xd).toNat = (s.readV vs).length ∧ Frame [] [xd] s t) ∧
    (∃ t, exec (.vmov vd vs) s = .next t ∧ t.readV vd = s.readV vs ∧ Frame [vd] [] s t)

/-- R258, R14: `VPAD` keeps the low digits and the value, the added digits are 0, and the length is the requested one. -/
def Obligations.VpadKeepsTheValue : Prop :=
  ∀ (vd vs : VReg) (len : Imm16) (s : State),
    (s.readV vs).length ≤ len.toNat → len.toNat ≤ s.params.cap →
    ∃ t, exec (.vpad vd vs len) s = .next t ∧ (t.readV vd).length = len.toNat ∧
      (t.readV vd).take (s.readV vs).length = s.readV vs ∧
      (∀ d ∈ (t.readV vd).drop (s.readV vs).length, d = 0) ∧
      val s.params.W (t.readV vd) = val s.params.W (s.readV vs) ∧ Frame [vd] [] s t

/-! ## Scalar digits (spec/40_scalar.md) -/

/-- R103, R100: `ADDS` gives the truncated sum and carry 1 exactly when `a + b` exceeds `MAXD`. That
`a + b = sum + carry * 2^W` is what R106 infers. -/
def Obligations.AddsIsExact : Prop :=
  ∀ (xsum xcarry xa xb : XReg) (s : State),
    let W := s.params.W; let a := (s.readX xa).toNat; let b := (s.readX xb).toNat
    xsum ≠ xcarry → a < 2 ^ W → b < 2 ^ W →
    ∃ t, exec (.adds xsum xcarry xa xb) s = .next t ∧
      (t.readX xsum).toNat = (a + b) % 2 ^ W ∧ (t.readX xcarry).toNat = (if 2 ^ W - 1 < a + b then 1 else 0) ∧
      (t.readX xsum).toNat + (t.readX xcarry).toNat * 2 ^ W = a + b ∧ Frame [] [xsum, xcarry] s t

/-- R104, R101: `SUBS` gives the difference modulo `2^W` and borrow 1 exactly when `a < b`. That
`a - b = diff - borrow * 2^W` is what R106 infers. -/
def Obligations.SubsIsExact : Prop :=
  ∀ (xdiff xborrow xa xb : XReg) (s : State),
    let W := s.params.W; let a := (s.readX xa).toNat; let b := (s.readX xb).toNat
    xdiff ≠ xborrow → a < 2 ^ W → b < 2 ^ W →
    ∃ t, exec (.subs xdiff xborrow xa xb) s = .next t ∧
      (t.readX xborrow).toNat = (if a < b then 1 else 0) ∧ (t.readX xdiff).toNat < 2 ^ W ∧
      a + (t.readX xborrow).toNat * 2 ^ W = b + (t.readX xdiff).toNat ∧ Frame [] [xdiff, xborrow] s t

/-- R105, R102: `MULS` writes the exact product as a number of two digits. That `high <= 2^W - 2` is what R102 infers. -/
def Obligations.MulsIsExact : Prop :=
  ∀ (vd : VReg) (xa xb : XReg) (s : State),
    let W := s.params.W; let a := (s.readX xa).toNat; let b := (s.readX xb).toNat
    a < 2 ^ W → b < 2 ^ W →
    ∃ t low high, exec (.muls vd xa xb) s = .next t ∧ t.readV vd = [low, high] ∧
      low < 2 ^ W ∧ high ≤ 2 ^ W - 2 ∧ low + high * 2 ^ W = a * b ∧ Frame [vd] [] s t

/-! ## Comparison (spec/41_compare.md) -/

/-- R121, R120, R124: `CMP` of numbers of equal length writes -1, 0 or 1 as their values stand. That the lexicographic result
is the order of the values is R124's reading of the source's law. -/
def Obligations.CmpOrdersByValue : Prop :=
  ∀ (xd : XReg) (va vb : VReg) (s : State),
    let W := s.params.W; let A := s.readV va; let B := s.readV vb
    A.length = B.length → DigitsOk W A → DigitsOk W B →
    ∃ t, exec (.cmp xd va vb) s = .next t ∧
      (t.readX xd).toInt = (if val W A < val W B then -1 else if val W A = val W B then 0 else 1) ∧
      Frame [] [xd] s t

/-- R122, R123: `EQ` writes 1 exactly when lengths and all digits are equal, and never faults. -/
def Obligations.EqTestsLengthAndDigits : Prop :=
  ∀ (xd : XReg) (va vb : VReg) (s : State),
    ∃ t, exec (.eq xd va vb) s = .next t ∧
      (t.readX xd = 1 ↔ (s.readV va).length = (s.readV vb).length ∧
        ∀ k < (s.readV va).length, (s.readV va)[k]? = (s.readV vb)[k]?) ∧
      (t.readX xd = 0 ∨ t.readX xd = 1) ∧ Frame [] [xd] s t

/-- R124: on numbers of equal length `numbersEqual` holds exactly when `compare` says EQUAL. -/
def Obligations.EqualityAgreesWithCompare : Prop :=
  ∀ A B : Number, A.length = B.length → (numbersEqual A B = true ↔ compareNum A B = .equal)

/-! ## Adder and subtractor (spec/42_addsub.md) -/

/-- R142, R141: `ADD` is exact modulo the number's width and its overflow says whether the true sum left the range. -/
def Obligations.AddIsExactModuloItsWidth : Prop :=
  ∀ (vd : VReg) (xovf : XReg) (va vb : VReg) (s : State),
    let W := s.params.W; let A := s.readV va; let B := s.readV vb; let n := A.length
    A.length = B.length → DigitsOk W A → DigitsOk W B →
    ∃ t, exec (.add vd xovf va vb) s = .next t ∧
      t.readV vd = num W n (val W A + val W B) ∧
      (t.readX xovf).toNat = (if 2 ^ (W * n) ≤ val W A + val W B then 1 else 0) ∧
      val W A + val W B = val W (t.readV vd) + (t.readX xovf).toNat * 2 ^ (W * n) ∧ Frame [vd] [xovf] s t

/-- R145, R144: `SUB` gives `(a - b) mod 2^(W*n)` and its overflow is 1 exactly when `a < b`. -/
def Obligations.SubIsExactModuloItsWidth : Prop :=
  ∀ (vd : VReg) (xovf : XReg) (va vb : VReg) (s : State),
    let W := s.params.W; let A := s.readV va; let B := s.readV vb; let n := A.length
    A.length = B.length → DigitsOk W A → DigitsOk W B →
    ∃ t, exec (.sub vd xovf va vb) s = .next t ∧
      t.readV vd = num W n (((val W A : Int) - val W B) % 2 ^ (W * n)).toNat ∧
      (t.readX xovf).toNat = (if val W A < val W B then 1 else 0) ∧
      val W A + (t.readX xovf).toNat * 2 ^ (W * n) = val W B + val W (t.readV vd) ∧ Frame [vd] [xovf] s t

/-- R146: with digit operands, a running carry or borrow of at most 1 stays at most 1. The half about the borrow is what R146
infers. -/
def Obligations.RunningCarryAndBorrowStayBelowTwo : Prop :=
  ∀ (W a b c : Nat), a < 2 ^ W → b < 2 ^ W → c ≤ 1 →
    (addScalars W a c).2 + (addScalars W (addScalars W a c).1 b).2 ≤ 1 ∧
    (subtractScalars W a c).2 + (subtractScalars W (subtractScalars W a c).1 b).2 ≤ 1

/-! ## Multipliers (spec/43_multiply.md) -/

/-- R161 (marked by the spec as derived): the running carry of `multiplyByScalar` never exceeds `MAXD - 1`. -/
def Obligations.RowCarryStaysBelowMaxd : Prop :=
  ∀ (W a b c : Nat), 0 < W → a < 2 ^ W → b < 2 ^ W → c ≤ 2 ^ W - 2 →
    a * b / 2 ^ W + (addScalars W (a * b % 2 ^ W) c).2 ≤ 2 ^ W - 2

/-- R162, R160: `MULSC` gives a number of length `n + 1`, below `CAP` at most, whose value is the exact product (exactness is
what R160 infers). -/
def Obligations.MulscIsExact : Prop :=
  ∀ (vd : VReg) (xa : XReg) (vb : VReg) (s : State),
    let W := s.params.W; let a := (s.readX xa).toNat; let B := s.readV vb
    a < 2 ^ W → DigitsOk W B → B.length + 1 ≤ s.params.cap →
    ∃ t, exec (.mulsc vd xa vb) s = .next t ∧ (t.readV vd).length = B.length + 1 ∧ DigitsOk W (t.readV vd) ∧
      val W (t.readV vd) = a * val W B ∧ Frame [vd] [] s t

/-- R163, R164, R166: the schoolbook accumulation of rows is the exact product in `2n` digits, and no accumulation overflows. -/
def Obligations.SchoolbookIsTheExactProduct : Prop :=
  ∀ (W : Nat) (A B : Number), 0 < W → A.length = B.length → DigitsOk W A → DigitsOk W B →
    multiply W A B = num W (2 * A.length) (val W A * val W B) ∧
    val W (multiply W A B) = val W A * val W B ∧
    ∀ k < A.length,
      (sum W ((List.range k).foldl (fun P i => (sum W P (multiplyRow W A B i)).1) (zeros (2 * A.length)))
        (multiplyRow W A B k)).2 = 0

/-- R165, R164: `MUL` writes the exact product as a number of length `2n`. -/
def Obligations.MulWritesTheExactProduct : Prop :=
  ∀ (vd va vb : VReg) (s : State),
    let W := s.params.W; let A := s.readV va; let B := s.readV vb
    A.length = B.length → 2 * A.length ≤ s.params.cap → DigitsOk W A → DigitsOk W B →
    ∃ t, exec (.mul vd va vb) s = .next t ∧ (t.readV vd).length = 2 * A.length ∧ DigitsOk W (t.readV vd) ∧
      val W (t.readV vd) = val W A * val W B ∧ Frame [vd] [] s t

/-! ## Divider (spec/44_divide.md) -/

/-- R181, R180: `DIV` writes the quotient and remainder of the operands' length that meet `b * q + r = a` and `r < b`; divisor
1, `a < b` and `a = b` are no special cases. -/
def Obligations.DivIsExact : Prop :=
  ∀ (vq vr va vb : VReg) (s : State),
    let W := s.params.W; let A := s.readV va; let B := s.readV vb
    vq ≠ vr → A.length = B.length → DigitsOk W A → DigitsOk W B → 1 ≤ val W B →
    ∃ t, exec (.div vq vr va vb) s = .next t ∧
      (t.readV vq).length = A.length ∧ (t.readV vr).length = A.length ∧
      DigitsOk W (t.readV vq) ∧ DigitsOk W (t.readV vr) ∧
      val W B * val W (t.readV vq) + val W (t.readV vr) = val W A ∧ val W (t.readV vr) < val W B ∧
      Frame [vq, vr] [] s t

/-- R183, R184 (marked by the spec as derived): the initial bounds enclose the quotient, and the midpoint lies strictly between
bounds that are two apart, so that the gap shrinks. -/
def Obligations.BisectionBoundsEnclose : Prop :=
  (∀ (W : Nat) (A B : Number), 0 < W → A.length = B.length → DigitsOk W A → DigitsOk W B → 2 ≤ val W B →
    (initialBounds W A B).l * val W B ≤ val W A ∧ val W A < (initialBounds W A B).u * val W B) ∧
  ∀ l u : Nat, 2 ≤ u - l → l < midpoint l u ∧ midpoint l u < u

/-- R182 with R183, R184: the bisection, in at most `W * n` rounds, gives the quotient and remainder of R180. -/
def Obligations.BisectionComputesTheDivision : Prop :=
  ∀ (W : Nat) (A B : Number), 0 < W → A.length = B.length → DigitsOk W A → DigitsOk W B → 2 ≤ val W B →
    divideBisect W A B = (num W A.length (val W A / val W B), num W A.length (val W A % val W B))

/-! ## Shifter and bit counts (spec/45_shift.md) -/

/-- R204, R203, R200: `SHL` by a signed count multiplies by `2^t` and drops what leaves the number, or divides by `2^-t`. The
value form is what R202 and R203 infer from their pseudocode. -/
def Obligations.ShlShiftsTheValue : Prop :=
  ∀ (vd vs : VReg) (xt : XReg) (s : State),
    let W := s.params.W; let N := s.readV vs; let c := (s.readX xt).toInt
    DigitsOk W N →
    ∃ t, exec (.shl vd vs xt) s = .next t ∧
      t.readV vd = (if c < 0 then num W N.length (val W N / 2 ^ (-c).toNat)
        else num W N.length (val W N * 2 ^ c.toNat)) ∧ Frame [vd] [] s t

/-- R205, R202, R200: `SHR` is the opposite direction. The value form is what R202 and R203 infer from their pseudocode. -/
def Obligations.ShrShiftsTheValue : Prop :=
  ∀ (vd vs : VReg) (xt : XReg) (s : State),
    let W := s.params.W; let N := s.readV vs; let c := (s.readX xt).toInt
    DigitsOk W N →
    ∃ t, exec (.shr vd vs xt) s = .next t ∧
      t.readV vd = (if c < 0 then num W N.length (val W N * 2 ^ (-c).toNat)
        else num W N.length (val W N / 2 ^ c.toNat)) ∧ Frame [vd] [] s t

/-- R207, R206: `SHRF` shifts right the number continued upward by fill digits, at every count `t >= 0`, and shifts left with the
fill unused for a negative one. The value form is what R206 infers from its pseudocode. -/
def Obligations.ShrfShiftsInTheFill : Prop :=
  ∀ (vd vs : VReg) (xt xf : XReg) (s : State),
    let W := s.params.W; let N := s.readV vs; let c := (s.readX xt).toInt; let f := (s.readX xf).toNat
    DigitsOk W N → f < 2 ^ W →
    ∃ t, exec (.shrf vd vs xt xf) s = .next t ∧
      t.readV vd = (if c < 0 then num W N.length (val W N * 2 ^ (-c).toNat)
        else num W N.length ((val W N +
          f * ∑ j ∈ Finset.Icc N.length (N.length + c.toNat / W), 2 ^ (W * j)) / 2 ^ c.toNat)) ∧
      Frame [vd] [] s t

/-- R208 (marked by the spec as derived): the shift identities. The first two rest on R13's digit counts, "from general
knowledge" in the spec (log entry 10). -/
def Obligations.ShiftIdentities : Prop :=
  ∀ (W : Nat) (N : Number) (t : Nat), 0 < W → DigitsOk W N →
    (t ≤ numberLeadingZeroBitCount W N → bitShiftRight W (bitShiftLeft W N t) t = N) ∧
    (t ≤ numberTrailingZeroBitCount W N → bitShiftLeft W (bitShiftRight W N t) t = N) ∧
    bitShiftRight W N 0 = N ∧ bitShiftLeft W N 0 = N ∧
    (W * N.length ≤ t → bitShiftRight W N t = zeros N.length ∧ bitShiftLeft W N t = zeros N.length) ∧
    bitShiftRight W N (-t) = bitShiftLeft W N t ∧ bitShiftLeft W N (-t) = bitShiftRight W N t

/-- R211, R210: `LZC` writes the total width less the bit length of the value (R210's inference; R13's digit counts are "from
general knowledge" in the spec, log entry 10). -/
def Obligations.LzcCountsFromTheTop : Prop :=
  ∀ (xd : XReg) (vs : VReg) (s : State),
    let W := s.params.W; let N := s.readV vs
    N.length ≤ 65535 → DigitsOk W N →
    ∃ t, exec (.lzc xd vs) s = .next t ∧ (t.readX xd).toNat = W * N.length - (val W N).size ∧ Frame [] [xd] s t

/-- R213, R212: `TZC` writes the number of trailing zero bits of the value, and the total width for value 0 (R212's inference;
R13's digit counts are "from general knowledge" in the spec, log entry 10). -/
def Obligations.TzcCountsFromTheBottom : Prop :=
  ∀ (xd : XReg) (vs : VReg) (s : State),
    let W := s.params.W; let N := s.readV vs
    N.length ≤ 65535 → DigitsOk W N →
    ∃ t, exec (.tzc xd vs) s = .next t ∧ Frame [] [xd] s t ∧
      (val W N = 0 → (t.readX xd).toNat = W * N.length) ∧
      (val W N ≠ 0 → 2 ^ (t.readX xd).toNat ∣ val W N ∧ ¬ 2 ^ ((t.readX xd).toNat + 1) ∣ val W N)

/-- R215, R214: `BWID` writes `W * len`, whatever the digits. -/
def Obligations.BwidIsTheTotalWidth : Prop :=
  ∀ (xd : XReg) (vs : VReg) (s : State), (s.readV vs).length ≤ 65535 →
    ∃ t, exec (.bwid xd vs) s = .next t ∧ (t.readX xd).toNat = s.params.W * (s.readV vs).length ∧ Frame [] [xd] s t

/-! ## Digit-wise logic (spec/46_logic.md) -/

/-- R230 for the commands of R231 to R234: with the unit present, each result digit is the operator of the operand digits, for
the binary commands on operands of equal length, and `NOT` gives `MAXD` less the digit. -/
def Obligations.LogicIsDigitwise : Prop :=
  ∀ (vd va vb : VReg) (s : State),
    let A := s.readV va; let B := s.readV vb
    s.params.logicPresent = true →
    (A.length = B.length →
      (∃ t, exec (.and vd va vb) s = .next t ∧ (t.readV vd).length = A.length ∧
        (∀ k a b : Nat, A[k]? = some a → B[k]? = some b → (t.readV vd)[k]? = some (a &&& b)) ∧ Frame [vd] [] s t) ∧
      (∃ t, exec (.or vd va vb) s = .next t ∧ (t.readV vd).length = A.length ∧
        (∀ k a b : Nat, A[k]? = some a → B[k]? = some b → (t.readV vd)[k]? = some (a ||| b)) ∧ Frame [vd] [] s t) ∧
      (∃ t, exec (.xor vd va vb) s = .next t ∧ (t.readV vd).length = A.length ∧
        (∀ k a b : Nat, A[k]? = some a → B[k]? = some b → (t.readV vd)[k]? = some (a ^^^ b)) ∧ Frame [vd] [] s t)) ∧
    (∃ t, exec (.not vd va) s = .next t ∧ (t.readV vd).length = A.length ∧
      (∀ k a : Nat, A[k]? = some a → (t.readV vd)[k]? = some (2 ^ s.params.W - 1 - a)) ∧ Frame [vd] [] s t)

/-- R234's corner case, which the spec marks as derived from R230: the value of `NOT A` is `2^(W*n) - 1 - val(A)`, and its digits
stay `W`-bit digits. -/
def Obligations.NotComplementsTheValue : Prop :=
  ∀ (vd va : VReg) (s : State),
    let W := s.params.W; let A := s.readV va
    s.params.logicPresent = true → DigitsOk W A →
    ∃ t, exec (.not vd va) s = .next t ∧ DigitsOk W (t.readV vd) ∧
      val W (t.readV vd) + val W A = 2 ^ (W * A.length) - 1 ∧ Frame [vd] [] s t

/-- R86, R80 case 5: without the logic unit every word of its opcodes is illegal, and its commands raise `ILLEGAL_CMD` whatever
their operands. -/
def Obligations.AbsentLogicIsIllegal : Prop :=
  ∀ (w : Word32) (vd va vb : VReg) (s : State),
    (bitsOf w 7 0 ∈ [0x40, 0x41, 0x42, 0x43] → decode false w = .error .logicAbsent) ∧
    (s.params.logicPresent = false → ∀ i ∈ [Instr.and vd va vb, .or vd va vb, .xor vd va vb, .not vd va],
      exec i s = .next { s with faulted := true, faultCode := .illegalCmd, faultCmd := s.cmd })
end

