-- ==== Sys2Proof/Laws/Config.lean ====
section
/-!
SUPPORT. The bounds every digit width meets (spec/00_scope.md R7).
-/

namespace Sys2Proof

/-- No digit width exceeds a scalar register. -/
theorem Params.W_le (p : Params) : p.W ≤ 64 := by
  cases hw : p.width <;> simp [Params.W, DigitWidth.bits, hw]

theorem Params.W_pos (p : Params) : 0 < p.W := by
  cases hw : p.width <;> simp [Params.W, DigitWidth.bits, hw]

end Sys2Proof
end

