-- ==== Sys2Proof/Laws/Encoding.lean ====
section
/-!
SUPPORT. The fields of the words the encoder builds (spec/30_encoding.md R71, R72, R73).
-/

namespace Sys2Proof

/-- A field put to the right of others, as arithmetic. -/
theorem toNat_append_eq {n m : Nat} (x : BitVec n) (y : BitVec m) : (x ++ y).toNat = x.toNat * 2 ^ m + y.toNat := by
  rw [BitVec.toNat_append, ← Nat.shiftLeft_eq, ← Nat.shiftLeft_add_eq_or_of_lt y.isLt]

section FormatR
variable (code : Byte) (rd rs1 rs2 re : Fin 16)

theorem formatR_toNat : (formatR code rd rs1 rs2 re).toNat =
    ((re.val * 2 ^ 4 + rs2.val) * 2 ^ 4 + rs1.val) * 2 ^ 12 + rd.val * 2 ^ 8 + code.toNat := by
  simp only [formatR, toNat_append_eq, BitVec.toNat_ofFin, BitVec.toNat_ofNat]
  omega

@[simp] theorem cmdOpcode_formatR : cmdOpcode (formatR code rd rs1 rs2 re) = code := by
  have := code.isLt
  apply BitVec.eq_of_toNat_eq
  simp only [cmdOpcode, BitVec.extractLsb'_toNat, formatR_toNat, Nat.shiftRight_eq_div_pow]
  omega

@[simp] theorem cmdRd_formatR : cmdRd (formatR code rd rs1 rs2 re) = rd := by
  have := code.isLt
  apply Fin.ext
  simp only [cmdRd, BitVec.val_toFin, BitVec.extractLsb'_toNat, formatR_toNat, Nat.shiftRight_eq_div_pow]
  omega

@[simp] theorem cmdRs1_formatR : cmdRs1 (formatR code rd rs1 rs2 re) = rs1 := by
  have := code.isLt
  apply Fin.ext
  simp only [cmdRs1, BitVec.val_toFin, BitVec.extractLsb'_toNat, formatR_toNat, Nat.shiftRight_eq_div_pow]
  omega

@[simp] theorem cmdRs2_formatR : cmdRs2 (formatR code rd rs1 rs2 re) = rs2 := by
  have := code.isLt
  apply Fin.ext
  simp only [cmdRs2, BitVec.val_toFin, BitVec.extractLsb'_toNat, formatR_toNat, Nat.shiftRight_eq_div_pow]
  omega

@[simp] theorem cmdRe_formatR : cmdRe (formatR code rd rs1 rs2 re) = re := by
  have := code.isLt
  apply Fin.ext
  simp only [cmdRe, BitVec.val_toFin, BitVec.extractLsb'_toNat, formatR_toNat, Nat.shiftRight_eq_div_pow]
  omega

@[simp] theorem cmdZ_formatR : cmdZ (formatR code rd rs1 rs2 re) = 0 := by
  have := code.isLt
  apply BitVec.eq_of_toNat_eq
  simp only [cmdZ, BitVec.extractLsb'_toNat, formatR_toNat, Nat.shiftRight_eq_div_pow]
  simp
  omega

end FormatR

section FormatI
variable (code : Byte) (rd rs1 : Fin 16) (imm : Imm16)

theorem formatI_toNat : (formatI code rd rs1 imm).toNat =
    (imm.toNat * 2 ^ 4 + rs1.val) * 2 ^ 12 + rd.val * 2 ^ 8 + code.toNat := by
  simp only [formatI, toNat_append_eq, BitVec.toNat_ofFin]
  omega

@[simp] theorem cmdOpcode_formatI : cmdOpcode (formatI code rd rs1 imm) = code := by
  have := code.isLt
  apply BitVec.eq_of_toNat_eq
  simp only [cmdOpcode, BitVec.extractLsb'_toNat, formatI_toNat, Nat.shiftRight_eq_div_pow]
  omega

@[simp] theorem cmdRd_formatI : cmdRd (formatI code rd rs1 imm) = rd := by
  have := code.isLt
  apply Fin.ext
  simp only [cmdRd, BitVec.val_toFin, BitVec.extractLsb'_toNat, formatI_toNat, Nat.shiftRight_eq_div_pow]
  omega

@[simp] theorem cmdRs1_formatI : cmdRs1 (formatI code rd rs1 imm) = rs1 := by
  have := code.isLt
  apply Fin.ext
  simp only [cmdRs1, BitVec.val_toFin, BitVec.extractLsb'_toNat, formatI_toNat, Nat.shiftRight_eq_div_pow]
  omega

@[simp] theorem cmdImm_formatI : cmdImm (formatI code rd rs1 imm) = imm := by
  have := code.isLt
  have := imm.isLt
  apply BitVec.eq_of_toNat_eq
  simp only [cmdImm, BitVec.extractLsb'_toNat, formatI_toNat, Nat.shiftRight_eq_div_pow]
  omega

end FormatI

end Sys2Proof
end

