-- ==== Sys2Proof/Laws/Flags.lean ====
section
/-!
SUPPORT. What the carry, borrow and equality functions can do, said once, and when a result survives its zero extension.
-/

namespace Sys2Proof.Machine

/-- The sum digit and the carry are the exact sum (spec/40_scalar.md R100). -/
theorem addScalars_spec {W a b : Nat} (ha : a < 2 ^ W) (hb : b ≤ 2 ^ W) :
    (addScalars W a b).1 < 2 ^ W ∧ (addScalars W a b).2 ≤ 1 ∧
      (addScalars W a b).1 + 2 ^ W * (addScalars W a b).2 = a + b := by
  have hpos := Nat.two_pow_pos W
  have h1 : (addScalars W a b).1 = (a + b) % 2 ^ W := rfl
  have h2 : (addScalars W a b).2 = if a + b > 2 ^ W - 1 then 1 else 0 := rfl
  by_cases h : a + b > 2 ^ W - 1
  · rw [if_pos h] at h2
    have hq : (a + b) / 2 ^ W = 1 := by apply Nat.div_eq_of_lt_le <;> omega
    have hd := Nat.div_add_mod (a + b) (2 ^ W)
    rw [hq] at hd
    have hm := Nat.mod_lt (a + b) hpos
    rw [h1, h2]
    omega
  · rw [if_neg h] at h2
    rw [h1, h2, Nat.mod_eq_of_lt (by omega)]
    omega

/-- The difference digit and the borrow are the exact difference (R101). -/
theorem subtractScalars_spec {W a b : Nat} (ha : a < 2 ^ W) (hb : b ≤ 2 ^ W) :
    (subtractScalars W a b).1 < 2 ^ W ∧ (subtractScalars W a b).2 ≤ 1 ∧
      a + 2 ^ W * (subtractScalars W a b).2 = b + (subtractScalars W a b).1 := by
  have hpos := Nat.two_pow_pos W
  have hnn := Int.emod_nonneg ((a : Int) - b) (b := ((2 ^ W : Nat) : Int)) (by positivity)
  have hlt := Int.emod_lt_of_pos ((a : Int) - b) (b := ((2 ^ W : Nat) : Int)) (by exact_mod_cast hpos)
  have h1 : (subtractScalars W a b).1 = (((a : Int) - b) % ((2 ^ W : Nat) : Int)).toNat := rfl
  have h2 : (subtractScalars W a b).2 = if a < b then 1 else 0 := rfl
  by_cases h : a < b
  · rw [if_pos h] at h2
    have hm : ((a : Int) - b) % ((2 ^ W : Nat) : Int) = a - b + (2 ^ W : Nat) := by
      rw [← Int.add_emod_right, Int.emod_eq_of_lt] <;> omega
    rw [h1, h2]
    omega
  · rw [if_neg h] at h2
    have hm : ((a : Int) - b) % ((2 ^ W : Nat) : Int) = a - b := by
      rw [Int.emod_eq_of_lt] <;> omega
    rw [h1, h2]
    omega

/-- `numbersEqual` is equality of the digit lists (spec/41_compare.md R122). -/
theorem numbersEqual_iff (A B : Number) : numbersEqual A B = true ↔ A = B := by
  induction A generalizing B with
  | nil => cases B <;> simp [numbersEqual]
  | cons a as ih => cases B <;> simp [numbersEqual, ih]

/-- A value of at most 64 bits is what the scalar register holds (spec/10_state.md R25). -/
theorem zext64_toNat {n : Nat} (h : n < 2 ^ 64) : (zext64 n).toNat = n := by
  simp [zext64]
  omega

end Sys2Proof.Machine
end

