-- ==== Sys2Proof/Laws/State.lean ====
section
/-!
SUPPORT. One lemma per field per update of State, so that no proof unfolds a record update, and register reads after writes.
-/

namespace Sys2Proof.Machine

/-! ## Registers -/

@[simp] theorem State.readV_writeV_self (s : State) (r : VReg) (N : Number) : (s.writeV r N).readV r = N := by
  simp [State.readV, State.writeV]

theorem State.readV_writeV_ne (s : State) {r q : VReg} (N : Number) (h : q ≠ r) : (s.writeV r N).readV q = s.readV q := by
  have h' : r.val ≠ q.val := fun e => h (Fin.ext e.symm)
  simp [State.readV, State.writeV, h']

@[simp] theorem State.readX_writeX_self (s : State) (r : XReg) (w : Word64) : (s.writeX r w).readX r = w := by
  simp [State.readX, State.writeX]

theorem State.readX_writeX_ne (s : State) {r q : XReg} (w : Word64) (h : q ≠ r) : (s.writeX r w).readX q = s.readX q := by
  have h' : r.val ≠ q.val := fun e => h (Fin.ext e.symm)
  simp [State.readX, State.writeX, h']

@[simp] theorem State.readX_writeV (s : State) (r : VReg) (N : Number) (q : XReg) : (s.writeV r N).readX q = s.readX q := rfl
@[simp] theorem State.readV_writeX (s : State) (r : XReg) (w : Word64) (q : VReg) : (s.writeX r w).readV q = s.readV q := rfl
@[simp] theorem State.readV_writeDout (s : State) (w : Word64) (q : VReg) : (s.writeDout w).readV q = s.readV q := rfl
@[simp] theorem State.readX_writeDout (s : State) (w : Word64) (q : XReg) : (s.writeDout w).readX q = s.readX q := rfl
@[simp] theorem State.readV_takeFault (s : State) (c : FaultCode) (q : VReg) : (s.takeFault c).readV q = s.readV q := rfl
@[simp] theorem State.readX_takeFault (s : State) (c : FaultCode) (q : XReg) : (s.takeFault c).readX q = s.readX q := rfl
@[simp] theorem State.readV_tick (s : State) (q : VReg) : s.tick.readV q = s.readV q := rfl
@[simp] theorem State.readX_tick (s : State) (q : XReg) : s.tick.readX q = s.readX q := rfl
@[simp] theorem State.readV_dropOffer (s : State) (q : VReg) : s.dropOffer.readV q = s.readV q := rfl
@[simp] theorem State.readX_dropOffer (s : State) (q : XReg) : s.dropOffer.readX q = s.readX q := rfl
@[simp] theorem State.readV_resetWith (p : Params) (q : VReg) : (State.resetWith p).readV q = [] := by
  simp [State.readV, State.resetWith]
@[simp] theorem State.readX_resetWith (p : Params) (q : XReg) : (State.resetWith p).readX q = 0 := by
  simp [State.readX, State.resetWith]
@[simp] theorem State.readV_applyReset (s : State) (q : VReg) : s.applyReset.readV q = [] :=
  State.readV_resetWith s.params q
@[simp] theorem State.readX_applyReset (s : State) (q : XReg) : s.applyReset.readX q = 0 :=
  State.readX_resetWith s.params q

/-! ## writeV -/

@[simp] theorem State.writeV_params (s : State) (r : VReg) (N : Number) : (s.writeV r N).params = s.params := rfl
@[simp] theorem State.writeV_x (s : State) (r : VReg) (N : Number) : (s.writeV r N).x = s.x := rfl
@[simp] theorem State.writeV_dout (s : State) (r : VReg) (N : Number) : (s.writeV r N).dout = s.dout := rfl
@[simp] theorem State.writeV_faulted (s : State) (r : VReg) (N : Number) : (s.writeV r N).faulted = s.faulted := rfl
@[simp] theorem State.writeV_faultCode (s : State) (r : VReg) (N : Number) : (s.writeV r N).faultCode = s.faultCode := rfl
@[simp] theorem State.writeV_faultCmd (s : State) (r : VReg) (N : Number) : (s.writeV r N).faultCmd = s.faultCmd := rfl
@[simp] theorem State.writeV_offers (s : State) (r : VReg) (N : Number) : (s.writeV r N).offers = s.offers := rfl
@[simp] theorem State.writeV_rst (s : State) (r : VReg) (N : Number) : (s.writeV r N).rst = s.rst := rfl

/-! ## writeX -/

@[simp] theorem State.writeX_params (s : State) (r : XReg) (w : Word64) : (s.writeX r w).params = s.params := rfl
@[simp] theorem State.writeX_v (s : State) (r : XReg) (w : Word64) : (s.writeX r w).v = s.v := rfl
@[simp] theorem State.writeX_dout (s : State) (r : XReg) (w : Word64) : (s.writeX r w).dout = s.dout := rfl
@[simp] theorem State.writeX_faulted (s : State) (r : XReg) (w : Word64) : (s.writeX r w).faulted = s.faulted := rfl
@[simp] theorem State.writeX_faultCode (s : State) (r : XReg) (w : Word64) : (s.writeX r w).faultCode = s.faultCode := rfl
@[simp] theorem State.writeX_faultCmd (s : State) (r : XReg) (w : Word64) : (s.writeX r w).faultCmd = s.faultCmd := rfl
@[simp] theorem State.writeX_offers (s : State) (r : XReg) (w : Word64) : (s.writeX r w).offers = s.offers := rfl
@[simp] theorem State.writeX_rst (s : State) (r : XReg) (w : Word64) : (s.writeX r w).rst = s.rst := rfl

/-! ## writeDout -/

@[simp] theorem State.writeDout_params (s : State) (w : Word64) : (s.writeDout w).params = s.params := rfl
@[simp] theorem State.writeDout_v (s : State) (w : Word64) : (s.writeDout w).v = s.v := rfl
@[simp] theorem State.writeDout_x (s : State) (w : Word64) : (s.writeDout w).x = s.x := rfl
@[simp] theorem State.writeDout_dout (s : State) (w : Word64) : (s.writeDout w).dout = w := rfl
@[simp] theorem State.writeDout_faulted (s : State) (w : Word64) : (s.writeDout w).faulted = s.faulted := rfl
@[simp] theorem State.writeDout_faultCode (s : State) (w : Word64) : (s.writeDout w).faultCode = s.faultCode := rfl
@[simp] theorem State.writeDout_faultCmd (s : State) (w : Word64) : (s.writeDout w).faultCmd = s.faultCmd := rfl
@[simp] theorem State.writeDout_offers (s : State) (w : Word64) : (s.writeDout w).offers = s.offers := rfl
@[simp] theorem State.writeDout_rst (s : State) (w : Word64) : (s.writeDout w).rst = s.rst := rfl

/-! ## takeFault -/

@[simp] theorem State.takeFault_params (s : State) (c : FaultCode) : (s.takeFault c).params = s.params := rfl
@[simp] theorem State.takeFault_v (s : State) (c : FaultCode) : (s.takeFault c).v = s.v := rfl
@[simp] theorem State.takeFault_x (s : State) (c : FaultCode) : (s.takeFault c).x = s.x := rfl
@[simp] theorem State.takeFault_dout (s : State) (c : FaultCode) : (s.takeFault c).dout = s.dout := rfl
@[simp] theorem State.takeFault_faulted (s : State) (c : FaultCode) : (s.takeFault c).faulted = true := rfl
@[simp] theorem State.takeFault_faultCode (s : State) (c : FaultCode) : (s.takeFault c).faultCode = c := rfl
@[simp] theorem State.takeFault_faultCmd (s : State) (c : FaultCode) : (s.takeFault c).faultCmd = s.cmd := rfl
@[simp] theorem State.takeFault_offers (s : State) (c : FaultCode) : (s.takeFault c).offers = s.offers := rfl
@[simp] theorem State.takeFault_rst (s : State) (c : FaultCode) : (s.takeFault c).rst = s.rst := rfl

/-! ## applyReset -/

@[simp] theorem State.applyReset_params (s : State) : s.applyReset.params = s.params := rfl
@[simp] theorem State.applyReset_dout (s : State) : s.applyReset.dout = 0 := rfl
@[simp] theorem State.applyReset_faulted (s : State) : s.applyReset.faulted = false := rfl
@[simp] theorem State.applyReset_faultCode (s : State) : s.applyReset.faultCode = .none := rfl
@[simp] theorem State.applyReset_faultCmd (s : State) : s.applyReset.faultCmd = 0 := rfl
@[simp] theorem State.applyReset_offers (s : State) : s.applyReset.offers = s.offers := rfl
@[simp] theorem State.applyReset_rst (s : State) : s.applyReset.rst = s.rst := rfl

/-! ## The host's inputs -/

@[simp] theorem State.tick_params (s : State) : s.tick.params = s.params := rfl
@[simp] theorem State.tick_dout (s : State) : s.tick.dout = s.dout := rfl
@[simp] theorem State.tick_faulted (s : State) : s.tick.faulted = s.faulted := rfl
@[simp] theorem State.tick_faultCode (s : State) : s.tick.faultCode = s.faultCode := rfl
@[simp] theorem State.tick_faultCmd (s : State) : s.tick.faultCmd = s.faultCmd := rfl
@[simp] theorem State.tick_offers (s : State) : s.tick.offers = s.offers := rfl
@[simp] theorem State.tick_rst (s : State) : s.tick.rst = s.rst.tail := rfl
@[simp] theorem State.dropOffer_params (s : State) : s.dropOffer.params = s.params := rfl
@[simp] theorem State.dropOffer_dout (s : State) : s.dropOffer.dout = s.dout := rfl
@[simp] theorem State.dropOffer_faulted (s : State) : s.dropOffer.faulted = s.faulted := rfl
@[simp] theorem State.dropOffer_faultCode (s : State) : s.dropOffer.faultCode = s.faultCode := rfl
@[simp] theorem State.dropOffer_faultCmd (s : State) : s.dropOffer.faultCmd = s.faultCmd := rfl
@[simp] theorem State.dropOffer_offers (s : State) : s.dropOffer.offers = s.offers.tail := rfl
@[simp] theorem State.dropOffer_rst (s : State) : s.dropOffer.rst = s.rst := rfl

@[simp] theorem State.keepOffer_params (s : State) : s.keepOffer.params = s.params := rfl
@[simp] theorem State.keepOffer_v (s : State) : s.keepOffer.v = s.v := rfl
@[simp] theorem State.keepOffer_x (s : State) : s.keepOffer.x = s.x := rfl
@[simp] theorem State.keepOffer_dout (s : State) : s.keepOffer.dout = s.dout := rfl
@[simp] theorem State.keepOffer_faulted (s : State) : s.keepOffer.faulted = s.faulted := rfl
@[simp] theorem State.keepOffer_faultCode (s : State) : s.keepOffer.faultCode = s.faultCode := rfl
@[simp] theorem State.keepOffer_faultCmd (s : State) : s.keepOffer.faultCmd = s.faultCmd := rfl
@[simp] theorem State.keepOffer_offers (s : State) : s.keepOffer.offers = waitingOffers s.offers := rfl
@[simp] theorem State.keepOffer_rst (s : State) : s.keepOffer.rst = s.rst := rfl
@[simp] theorem State.readV_keepOffer (s : State) (q : VReg) : s.keepOffer.readV q = s.readV q := rfl
@[simp] theorem State.readX_keepOffer (s : State) (q : XReg) : s.keepOffer.readX q = s.readX q := rfl

/-! ## Offers that wait -/

@[simp] theorem waitingOffers_nil : waitingOffers [] = [] := rfl
@[simp] theorem waitingOffers_idle (rest : List Offer) : waitingOffers (.idle :: rest) = rest := rfl
@[simp] theorem waitingOffers_hold (c : Word32) (d : Word64) (rest : List Offer) :
    waitingOffers (.command c d .hold :: rest) = .command c d .hold :: rest := rfl
@[simp] theorem waitingOffers_withdraw_zero (c : Word32) (d : Word64) (rest : List Offer) :
    waitingOffers (.command c d (.withdraw 0) :: rest) = .idle :: rest := rfl
@[simp] theorem waitingOffers_withdraw_succ (c : Word32) (d : Word64) (n : Nat) (rest : List Offer) :
    waitingOffers (.command c d (.withdraw (n + 1)) :: rest) = .command c d (.withdraw n) :: rest := rfl
@[simp] theorem waitingOffers_change_succ (c : Word32) (d : Word64) (n : Nat) (rest : List Offer) :
    waitingOffers (.command c d (.change (n + 1)) :: rest) = .command c d (.change n) :: rest := rfl

/-- With no command on the port, an idle step passes. -/
theorem waitingOffers_of_not_cmdValid {s : State} (h : s.cmdValid = false) : waitingOffers s.offers = s.offers.tail := by
  unfold State.cmdValid at h
  split at h <;> simp_all

/-- The step stops exactly on an offer that changes now while the core is not ready. -/
theorem State.offerChanges_iff (s : State) :
    s.offerChanges = true ↔ ∃ w din rest, s.offers = .command w din (.change 0) :: rest ∧ s.cmdReady = false := by
  unfold State.offerChanges
  split <;> simp_all

end Sys2Proof.Machine
end

