-- ==== Sys2Proof/Laws/Ops.lean ====
section
/-!
SUPPORT. What each shared operation can do, said once: the checks (require, requireDistinct, requireLogic, withDigit), the frames
of the register writes, and the cases of a step.
-/

namespace Sys2Proof.Machine

@[simp] theorem mapNext_next (f : State → State) (s : State) : mapNext f (.next s) = .next (f s) := rfl

theorem mapNext_eq_next {f : State → State} {r : Result} {t : State} (h : mapNext f r = .next t) :
    ∃ s, r = .next s ∧ t = f s := by
  cases r with
  | next s => exact ⟨s, rfl, by simpa using h.symm⟩
  | fault _ => cases h
  | refused _ => cases h

/-! ## Checks -/

theorem require_true {ok : Prop} [Decidable ok] (h : ok) (c : FaultCode) (s : State) (k : Result) :
    require ok c s k = k := by
  simp [require, h]

theorem require_false {ok : Prop} [Decidable ok] (h : ¬ ok) (c : FaultCode) (s : State) (k : Result) :
    require ok c s k = .next (s.takeFault c) := by
  simp [require, h, raise]

/-- A check goes on, or takes the fault of its code (R305, R306). -/
theorem require_cases {ok : Prop} [Decidable ok] {c : FaultCode} {s : State} {k r : Result} (h : require ok c s k = r) :
    (ok ∧ k = r) ∨ (¬ ok ∧ r = .next (s.takeFault c)) := by
  by_cases hk : ok
  · exact .inl ⟨hk, by rw [require_true hk] at h; exact h⟩
  · exact .inr ⟨hk, by rw [require_false hk] at h; exact h.symm⟩

theorem requireDistinct_ne {d e : Fin 16} (h : d ≠ e) (s : State) (k : Result) : requireDistinct d e s k = k :=
  require_true h _ _ _

theorem requireDistinct_self (d : Fin 16) (s : State) (k : Result) :
    requireDistinct d d s k = .next (s.takeFault .illegalCmd) :=
  require_false (fun h => h rfl) _ _ _

theorem requireLogic_present {s : State} (h : s.params.logicPresent = true) (k : Result) : requireLogic s k = k :=
  require_true h _ _ _

theorem requireLogic_absent {s : State} (h : s.params.logicPresent = false) (k : Result) :
    requireLogic s k = .next (s.takeFault .illegalCmd) :=
  require_false (by simp [h]) _ _ _

/-- The digit-range check of R312 says that the register's value is a digit. -/
theorem State.digitOk_iff (s : State) (r : XReg) : s.digitOk r = true ↔ (s.readX r).toNat < 2 ^ s.params.W := by
  by_cases hw : s.params.W < 64
  · simp [State.digitOk, hw, Nat.shiftRight_eq_div_pow, Nat.div_eq_zero_iff]
  · have h64 : s.params.W = 64 := by have := s.params.W_le; omega
    simp [State.digitOk, h64, (s.readX r).isLt]

/-- A digit operand in range is the register's value. -/
theorem withDigit_ok {r : XReg} {s : State} (h : (s.readX r).toNat < 2 ^ s.params.W) (k : Nat → Result) :
    withDigit r s k = k (s.readX r).toNat := by
  rw [withDigit, require_true ((s.digitOk_iff r).mpr h), State.digitValue, Nat.mod_eq_of_lt h]

/-- A digit operand out of range faults `DIGIT_RANGE` (R312). -/
theorem withDigit_fault {r : XReg} {s : State} (h : 2 ^ s.params.W ≤ (s.readX r).toNat) (k : Nat → Result) :
    withDigit r s k = .next (s.takeFault .digitRange) := by
  have : ¬ s.digitOk r = true := by
    rw [State.digitOk_iff]
    omega
  rw [withDigit, require_false this]

/-! ## Frames -/

theorem Frame.refl (s : State) : Frame [] [] s s := ⟨fun _ _ => rfl, fun _ _ => rfl, rfl, rfl, rfl, rfl, rfl, rfl, rfl⟩

theorem frame_writeV (s : State) (r : VReg) (N : Number) : Frame [r] [] s (s.writeV r N) :=
  ⟨fun q h => State.readV_writeV_ne s N (by simpa using h), fun _ _ => rfl, rfl, rfl, rfl, rfl, rfl, rfl, rfl⟩

theorem frame_writeX (s : State) (r : XReg) (w : Word64) : Frame [] [r] s (s.writeX r w) :=
  ⟨fun _ _ => rfl, fun q h => State.readX_writeX_ne s w (by simpa using h), rfl, rfl, rfl, rfl, rfl, rfl, rfl⟩

/-- Frames of one write after another. -/
theorem Frame.trans {vs ws : List VReg} {xs ys : List XReg} {s t u : State} (h : Frame vs xs s t) (k : Frame ws ys t u) :
    Frame (vs ++ ws) (xs ++ ys) s u where
  numbers r hr := by
    rw [List.mem_append, not_or] at hr
    rw [k.numbers r hr.2, h.numbers r hr.1]
  scalars r hr := by
    rw [List.mem_append, not_or] at hr
    rw [k.scalars r hr.2, h.scalars r hr.1]
  dout := k.dout.trans h.dout
  faulted := k.faulted.trans h.faulted
  faultCode := k.faultCode.trans h.faultCode
  faultCmd := k.faultCmd.trans h.faultCmd
  params := k.params.trans h.params
  offers := k.offers.trans h.offers
  rst := k.rst.trans h.rst

/-! ## A step -/

/-- Everything a step that answers a next state can be: a reset, a performed command, or a step that accepts none. -/
theorem step_cases {s t : State} (h : step s = .next t) :
    (s.rstLevel = true ∧ t = s.applyReset.keepOffer.tick) ∨
    (s.rstLevel = false ∧ s.cmdValid = true ∧ s.faulted = false ∧
      ∃ u, s.perform = .next u ∧ t = u.dropOffer.tick) ∨
    (s.rstLevel = false ∧ (s.cmdValid = false ∨ s.faulted = true) ∧ t = s.keepOffer.tick) := by
  unfold step at h
  split at h
  · cases h
  split at h
  next _ hr => exact .inl ⟨hr, by simpa using h.symm⟩
  next _ hr =>
  have hr' : s.rstLevel = false := by simpa using hr
  split at h
  next hv =>
    obtain ⟨u, hu, rfl⟩ := mapNext_eq_next h
    simp [State.cmdReady, hr'] at hv
    exact .inr (.inl ⟨hr', hv.1, hv.2, u, hu, rfl⟩)
  next hv =>
    refine .inr (.inr ⟨hr', ?_, by simpa using h.symm⟩)
    simp [State.cmdReady, hr'] at hv
    cases hc : s.cmdValid with
    | false => exact .inl rfl
    | true => exact .inr (hv hc)

end Sys2Proof.Machine
end

