-- ==== Sys2Proof/Laws/Invariant.lean ====
section
/-!
SUPPORT. The shared operations keep the invariant: the register writes, the fault entry and a check.
-/

namespace Sys2Proof.Machine

theorem inv_takeFault {s : State} (h : s.Inv) {c : FaultCode} (hc : c ≠ .none) : (s.takeFault c).Inv :=
  ⟨h.params, h.numbers, fun hf => (Bool.noConfusion hf : _), fun _ => hc⟩

theorem inv_writeX {s : State} (h : s.Inv) (r : XReg) (w : Word64) : (s.writeX r w).Inv :=
  ⟨h.params, h.numbers, h.running, h.stopped⟩

theorem inv_writeV {s : State} (h : s.Inv) (r : VReg) {N : Number} (hN : NumberOk s.params N) : (s.writeV r N).Inv := by
  refine ⟨h.params, fun q => ?_, h.running, h.stopped⟩
  by_cases hq : q = r
  · subst hq
    rw [State.readV_writeV_self]
    exact hN
  · rw [State.readV_writeV_ne s N hq]
    exact h.numbers q

/-- A check keeps the invariant when what it guards does. -/
theorem inv_require {ok : Prop} [Decidable ok] {c : FaultCode} {s t : State} {k : Result} (hs : s.Inv) (hc : c ≠ .none)
    (h : require ok c s k = .next t) (hk : ok → k = .next t → t.Inv) : t.Inv := by
  rcases require_cases h with ⟨ho, hn⟩ | ⟨-, hn⟩
  · exact hk ho hn
  · cases hn
    exact inv_takeFault hs hc

end Sys2Proof.Machine
end

