-- ==== Sys2Proof/Laws/Numbers.lean ====
section
/-!
SUPPORT. Numbers (spec/00_scope.md R10, R14): lengths, digit bounds, and the correspondence of `val` and `num`.
-/

namespace Sys2Proof.Machine

@[simp] theorem val_nil (W : Nat) : val W [] = 0 := rfl
@[simp] theorem val_cons (W : Nat) (d : Nat) (ds : Number) : val W (d :: ds) = d + 2 ^ W * val W ds := rfl

@[simp] theorem length_num (W n v : Nat) : (num W n v).length = n := by
  induction n generalizing v with
  | zero => rfl
  | succ n ih => simp [num, ih]

theorem digitsOk_num (W n v : Nat) : DigitsOk W (num W n v) := by
  induction n generalizing v with
  | zero => intro d hd; cases hd
  | succ n ih =>
    intro d hd
    rcases List.mem_cons.mp hd with rfl | hd
    · exact Nat.mod_lt _ (Nat.two_pow_pos W)
    · exact ih _ d hd

/-- A number's value is below `2^(W*n)`. -/
theorem val_lt {W : Nat} {N : Number} (h : DigitsOk W N) : val W N < 2 ^ (W * N.length) := by
  induction N with
  | nil => simp
  | cons d ds ih =>
    have hd : d < 2 ^ W := h d (by simp)
    have hs : val W ds < 2 ^ (W * ds.length) := ih fun e he => h e (by simp [he])
    have : 2 ^ (W * (ds.length + 1)) = 2 ^ W * 2 ^ (W * ds.length) := by rw [Nat.mul_succ, Nat.pow_add, Nat.mul_comm]
    simp only [val_cons, List.length_cons, this]
    calc d + 2 ^ W * val W ds < 2 ^ W + 2 ^ W * val W ds := by omega
      _ = 2 ^ W * (val W ds + 1) := by ring
      _ ≤ 2 ^ W * 2 ^ (W * ds.length) := Nat.mul_le_mul_left _ hs

/-- `num_n(v)` has value `v mod 2^(W*n)` (R10). -/
theorem val_num (W n v : Nat) : val W (num W n v) = v % 2 ^ (W * n) := by
  induction n generalizing v with
  | zero => simp [num, Nat.mod_one]
  | succ n ih =>
    rw [num, val_cons, ih, Nat.mul_succ, Nat.add_comm (W * n) W, Nat.pow_add, Nat.mod_mul]

/-- A number is the number of its length with its value. -/
theorem num_val {W : Nat} {N : Number} (h : DigitsOk W N) : num W N.length (val W N) = N := by
  induction N with
  | nil => rfl
  | cons d ds ih =>
    have hd : d < 2 ^ W := h d (by simp)
    have hpos : 0 < 2 ^ W := Nat.two_pow_pos W
    simp only [List.length_cons, num, val_cons, Nat.add_mul_mod_self_left, Nat.mod_eq_of_lt hd,
      Nat.add_mul_div_left _ _ hpos, Nat.div_eq_of_lt hd, Nat.zero_add]
    rw [ih fun e he => h e (by simp [he])]

/-- Numbers of equal length and equal value are equal. -/
theorem eq_of_val_eq {W : Nat} {A B : Number} (hA : DigitsOk W A) (hB : DigitsOk W B) (hl : A.length = B.length)
    (hv : val W A = val W B) : A = B := by
  rw [← num_val hA, ← num_val hB, hl, hv]

/-- `num_n` sees its argument modulo `2^(W*n)` only. -/
theorem num_mod (W n v : Nat) : num W n (v % 2 ^ (W * n)) = num W n v := by
  apply eq_of_val_eq (W := W) (digitsOk_num _ _ _) (digitsOk_num _ _ _) (by simp)
  simp [val_num]

theorem val_append (W : Nat) (A B : Number) : val W (A ++ B) = val W A + 2 ^ (W * A.length) * val W B := by
  induction A with
  | nil => simp
  | cons d ds ih =>
    simp only [List.cons_append, val_cons, ih, List.length_cons, Nat.mul_succ, Nat.pow_add]
    ring

@[simp] theorem length_zeros (n : Nat) : (zeros n).length = n := by simp [zeros]

theorem digitsOk_zeros (W n : Nat) : DigitsOk W (zeros n) := by
  intro d hd
  rw [List.eq_of_mem_replicate hd]
  exact Nat.two_pow_pos W

@[simp] theorem val_zeros (W n : Nat) : val W (zeros n) = 0 := by
  induction n with
  | zero => rfl
  | succ n ih =>
    change val W (0 :: zeros n) = 0
    simp [ih]

/-- `zeros(n) = num_n(0)` (R10). -/
theorem zeros_eq_num (W n : Nat) : zeros n = num W n 0 := by
  apply eq_of_val_eq (W := W) (digitsOk_zeros W n) (digitsOk_num _ _ _) (by simp)
  simp [val_num]

theorem length_padRight {N : Number} {m : Nat} (h : N.length ≤ m) : (padRight N m).length = m := by
  simp [padRight]
  omega

/-- Padding keeps the value (R14). -/
@[simp] theorem val_padRight (W : Nat) (N : Number) (m : Nat) : val W (padRight N m) = val W N := by
  simp [padRight, val_append]

theorem digitsOk_padRight {W : Nat} {N : Number} (h : DigitsOk W N) (m : Nat) : DigitsOk W (padRight N m) := by
  intro d hd
  rcases List.mem_append.mp hd with hd | hd
  · exact h d hd
  · exact digitsOk_zeros W _ d hd

@[simp] theorem length_digitShiftUp (N : Number) (k : Nat) : (digitShiftUp N k).length = N.length := by
  simp [digitShiftUp]

theorem digitsOk_digitShiftUp {W : Nat} {N : Number} (h : DigitsOk W N) (k : Nat) : DigitsOk W (digitShiftUp N k) := by
  intro d hd
  rcases List.mem_append.mp (List.mem_of_mem_take hd) with hd | hd
  · exact digitsOk_zeros W k d hd
  · exact h d hd

/-- A divisor's value is 0 exactly when all its digits are 0 (spec/44_divide.md R181). -/
theorem val_eq_zero_iff (W : Nat) (N : Number) : val W N = 0 ↔ ∀ d ∈ N, d = 0 := by
  induction N with
  | nil => simp
  | cons d ds ih => simp [ih]

end Sys2Proof.Machine
end

