-- ==== Sys2Proof/Laws/PerInstr.lean ====
section
/-!
SUPPORT. Statements made per instruction: family EncodedFields, the fields of every command's word (spec/30_encoding.md R77, R78).
-/

namespace Sys2Proof.Laws.EncodedFields

/-- R77, R78: the word of the command has the opcode of its mnemonic's row in the opcode map, and its `z` field and every
register field the row does not use are 0. -/
def Statement (i : Instr) : Prop :=
  ∃ r ∈ opcodeMap, r.op = (Machine.asmParts i).1 ∧ cmdOpcode (encode i) = r.code ∧
    (r.fmt = .R → cmdZ (encode i) = 0) ∧ unusedFieldsZero r (encode i) = true

theorem of_row {i : Instr} (r : OpRow) (hr : r ∈ opcodeMap) (ho : r.op = (Machine.asmParts i).1)
    (hc : cmdOpcode (encode i) = r.code) (hz : r.fmt = .R → cmdZ (encode i) = 0)
    (hu : unusedFieldsZero r (encode i) = true) : Statement i :=
  ⟨r, hr, ho, hc, hz, hu⟩

theorem xld (xd : XReg) : Statement (.xld xd) :=
  of_row ⟨.XLD, 0x01, .R, true, false, false, false⟩ (by decide) rfl (by simp [encode]) (by simp [encode]) (by simp [encode, unusedFieldsZero])

theorem xli (xd : XReg) (imm : Imm16) : Statement (.xli xd imm) :=
  of_row ⟨.XLI, 0x02, .I, true, false, false, false⟩ (by decide) rfl (by simp [encode]) (by simp [encode]) (by simp [encode, unusedFieldsZero])

theorem xrd (xs : XReg) : Statement (.xrd xs) :=
  of_row ⟨.XRD, 0x03, .R, false, true, false, false⟩ (by decide) rfl (by simp [encode]) (by simp [encode]) (by simp [encode, unusedFieldsZero])

theorem vzero (vd : VReg) (len : Imm16) : Statement (.vzero vd len) :=
  of_row ⟨.VZERO, 0x04, .I, true, false, false, false⟩ (by decide) rfl (by simp [encode]) (by simp [encode]) (by simp [encode, unusedFieldsZero])

theorem vwr (vd : VReg) (xs : XReg) (idx : Imm16) : Statement (.vwr vd xs idx) :=
  of_row ⟨.VWR, 0x05, .I, true, true, false, false⟩ (by decide) rfl (by simp [encode]) (by simp [encode]) (by simp [encode, unusedFieldsZero])

theorem vrd (xd : XReg) (vs : VReg) (idx : Imm16) : Statement (.vrd xd vs idx) :=
  of_row ⟨.VRD, 0x06, .I, true, true, false, false⟩ (by decide) rfl (by simp [encode]) (by simp [encode]) (by simp [encode, unusedFieldsZero])

theorem vlen (xd : XReg) (vs : VReg) : Statement (.vlen xd vs) :=
  of_row ⟨.VLEN, 0x07, .R, true, true, false, false⟩ (by decide) rfl (by simp [encode]) (by simp [encode]) (by simp [encode, unusedFieldsZero])

theorem vmov (vd vs : VReg) : Statement (.vmov vd vs) :=
  of_row ⟨.VMOV, 0x08, .R, true, true, false, false⟩ (by decide) rfl (by simp [encode]) (by simp [encode]) (by simp [encode, unusedFieldsZero])

theorem vpad (vd vs : VReg) (len : Imm16) : Statement (.vpad vd vs len) :=
  of_row ⟨.VPAD, 0x09, .I, true, true, false, false⟩ (by decide) rfl (by simp [encode]) (by simp [encode]) (by simp [encode, unusedFieldsZero])

theorem adds (xsum xcarry xa xb : XReg) : Statement (.adds xsum xcarry xa xb) :=
  of_row ⟨.ADDS, 0x10, .R, true, true, true, true⟩ (by decide) rfl (by simp [encode]) (by simp [encode]) (by simp [encode, unusedFieldsZero])

theorem subs (xdiff xborrow xa xb : XReg) : Statement (.subs xdiff xborrow xa xb) :=
  of_row ⟨.SUBS, 0x11, .R, true, true, true, true⟩ (by decide) rfl (by simp [encode]) (by simp [encode]) (by simp [encode, unusedFieldsZero])

theorem muls (vd : VReg) (xa xb : XReg) : Statement (.muls vd xa xb) :=
  of_row ⟨.MULS, 0x12, .R, true, true, true, false⟩ (by decide) rfl (by simp [encode]) (by simp [encode]) (by simp [encode, unusedFieldsZero])

theorem cmp (xd : XReg) (va vb : VReg) : Statement (.cmp xd va vb) :=
  of_row ⟨.CMP, 0x18, .R, true, true, true, false⟩ (by decide) rfl (by simp [encode]) (by simp [encode]) (by simp [encode, unusedFieldsZero])

theorem eq (xd : XReg) (va vb : VReg) : Statement (.eq xd va vb) :=
  of_row ⟨.EQ, 0x19, .R, true, true, true, false⟩ (by decide) rfl (by simp [encode]) (by simp [encode]) (by simp [encode, unusedFieldsZero])

theorem add (vd : VReg) (xovf : XReg) (va vb : VReg) : Statement (.add vd xovf va vb) :=
  of_row ⟨.ADD, 0x20, .R, true, true, true, true⟩ (by decide) rfl (by simp [encode]) (by simp [encode]) (by simp [encode, unusedFieldsZero])

theorem sub (vd : VReg) (xovf : XReg) (va vb : VReg) : Statement (.sub vd xovf va vb) :=
  of_row ⟨.SUB, 0x21, .R, true, true, true, true⟩ (by decide) rfl (by simp [encode]) (by simp [encode]) (by simp [encode, unusedFieldsZero])

theorem mulsc (vd : VReg) (xa : XReg) (vb : VReg) : Statement (.mulsc vd xa vb) :=
  of_row ⟨.MULSC, 0x28, .R, true, true, true, false⟩ (by decide) rfl (by simp [encode]) (by simp [encode]) (by simp [encode, unusedFieldsZero])

theorem mul (vd va vb : VReg) : Statement (.mul vd va vb) :=
  of_row ⟨.MUL, 0x29, .R, true, true, true, false⟩ (by decide) rfl (by simp [encode]) (by simp [encode]) (by simp [encode, unusedFieldsZero])

theorem div (vq vr va vb : VReg) : Statement (.div vq vr va vb) :=
  of_row ⟨.DIV, 0x30, .R, true, true, true, true⟩ (by decide) rfl (by simp [encode]) (by simp [encode]) (by simp [encode, unusedFieldsZero])

theorem shl (vd vs : VReg) (xt : XReg) : Statement (.shl vd vs xt) :=
  of_row ⟨.SHL, 0x38, .R, true, true, true, false⟩ (by decide) rfl (by simp [encode]) (by simp [encode]) (by simp [encode, unusedFieldsZero])

theorem shr (vd vs : VReg) (xt : XReg) : Statement (.shr vd vs xt) :=
  of_row ⟨.SHR, 0x39, .R, true, true, true, false⟩ (by decide) rfl (by simp [encode]) (by simp [encode]) (by simp [encode, unusedFieldsZero])

theorem shrf (vd vs : VReg) (xt xf : XReg) : Statement (.shrf vd vs xt xf) :=
  of_row ⟨.SHRF, 0x3A, .R, true, true, true, true⟩ (by decide) rfl (by simp [encode]) (by simp [encode]) (by simp [encode, unusedFieldsZero])

theorem lzc (xd : XReg) (vs : VReg) : Statement (.lzc xd vs) :=
  of_row ⟨.LZC, 0x3C, .R, true, true, false, false⟩ (by decide) rfl (by simp [encode]) (by simp [encode]) (by simp [encode, unusedFieldsZero])

theorem tzc (xd : XReg) (vs : VReg) : Statement (.tzc xd vs) :=
  of_row ⟨.TZC, 0x3D, .R, true, true, false, false⟩ (by decide) rfl (by simp [encode]) (by simp [encode]) (by simp [encode, unusedFieldsZero])

theorem bwid (xd : XReg) (vs : VReg) : Statement (.bwid xd vs) :=
  of_row ⟨.BWID, 0x3E, .R, true, true, false, false⟩ (by decide) rfl (by simp [encode]) (by simp [encode]) (by simp [encode, unusedFieldsZero])

theorem and (vd va vb : VReg) : Statement (.and vd va vb) :=
  of_row ⟨.AND, 0x40, .R, true, true, true, false⟩ (by decide) rfl (by simp [encode]) (by simp [encode]) (by simp [encode, unusedFieldsZero])

theorem or (vd va vb : VReg) : Statement (.or vd va vb) :=
  of_row ⟨.OR, 0x41, .R, true, true, true, false⟩ (by decide) rfl (by simp [encode]) (by simp [encode]) (by simp [encode, unusedFieldsZero])

theorem xor (vd va vb : VReg) : Statement (.xor vd va vb) :=
  of_row ⟨.XOR, 0x42, .R, true, true, true, false⟩ (by decide) rfl (by simp [encode]) (by simp [encode]) (by simp [encode, unusedFieldsZero])

theorem not (vd va : VReg) : Statement (.not vd va) :=
  of_row ⟨.NOT, 0x43, .R, true, true, false, false⟩ (by decide) rfl (by simp [encode]) (by simp [encode]) (by simp [encode, unusedFieldsZero])

end Sys2Proof.Laws.EncodedFields
end

