-- ==== Sys2Proof/Laws/Shift.lean ====
section
/-!
SUPPORT. The shift functions (spec/45_shift.md) keep the length and give digits, whatever the count.
-/

namespace Sys2Proof.Machine

theorem srcDigit_lt {W out : Nat} {N : Number} (hN : DigitsOk W N) (ho : out < 2 ^ W) (j : Int) :
    srcDigit N out j < 2 ^ W := by
  unfold srcDigit
  split
  · rw [List.getD_eq_getElem _ _ (by omega)]
    exact hN _ (List.getElem_mem _)
  · exact ho

theorem composeRight_lt {W hi lo : Nat} (hl : lo < 2 ^ W) (r : Nat) : composeRight W hi lo r < 2 ^ W := by
  unfold composeRight
  split
  · exact hl
  · exact Nat.or_lt_two_pow (lt_of_le_of_lt (Nat.shiftRight_le lo r) hl) (Nat.mod_lt _ (Nat.two_pow_pos W))

theorem composeLeft_lt {W hi lo : Nat} (hh : hi < 2 ^ W) (hl : lo < 2 ^ W) (r : Nat) : composeLeft W hi lo r < 2 ^ W := by
  unfold composeLeft
  split
  · exact hh
  · exact Nat.or_lt_two_pow (Nat.mod_lt _ (Nat.two_pow_pos W)) (lt_of_le_of_lt (Nat.shiftRight_le lo _) hl)

@[simp] theorem length_shiftRightDigits (W : Nat) (N : Number) (out t : Nat) :
    (shiftRightDigits W N out t).length = N.length := by
  simp [shiftRightDigits]

@[simp] theorem length_shiftLeftDigits (W : Nat) (N : Number) (t : Nat) : (shiftLeftDigits W N t).length = N.length := by
  simp [shiftLeftDigits]

theorem digitsOk_shiftRightDigits {W out : Nat} {N : Number} (hN : DigitsOk W N) (ho : out < 2 ^ W) (t : Nat) :
    DigitsOk W (shiftRightDigits W N out t) := by
  intro d hd
  obtain ⟨k, -, rfl⟩ := List.mem_map.mp hd
  exact composeRight_lt (srcDigit_lt hN ho _) _

theorem digitsOk_shiftLeftDigits {W : Nat} {N : Number} (hN : DigitsOk W N) (t : Nat) :
    DigitsOk W (shiftLeftDigits W N t) := by
  intro d hd
  obtain ⟨k, -, rfl⟩ := List.mem_map.mp hd
  exact composeLeft_lt (srcDigit_lt hN (Nat.two_pow_pos W) _) (srcDigit_lt hN (Nat.two_pow_pos W) _) _

@[simp] theorem length_shiftRightBy (W : Nat) (N : Number) (t : Nat) : (shiftRightBy W N t).length = N.length := by
  unfold shiftRightBy
  split <;> simp

@[simp] theorem length_shiftLeftBy (W : Nat) (N : Number) (t : Nat) : (shiftLeftBy W N t).length = N.length := by
  unfold shiftLeftBy
  split <;> simp

theorem digitsOk_shiftRightBy {W : Nat} {N : Number} (hN : DigitsOk W N) (t : Nat) : DigitsOk W (shiftRightBy W N t) := by
  unfold shiftRightBy
  split
  · exact digitsOk_zeros W _
  · exact digitsOk_shiftRightDigits hN (Nat.two_pow_pos W) t

theorem digitsOk_shiftLeftBy {W : Nat} {N : Number} (hN : DigitsOk W N) (t : Nat) : DigitsOk W (shiftLeftBy W N t) := by
  unfold shiftLeftBy
  split
  · exact digitsOk_zeros W _
  · exact digitsOk_shiftLeftDigits hN t

end Sys2Proof.Machine
end

