-- ==== Sys2Proof/Tests/Slice0.lean ====
section
/-!
SUPPORT. The model's own tests: the WellFormed smoke, the decoder on words written out from the spec, one step on rows of
spec/95_test_vectors.md (at most two per command), the port, the assembler, and a witness for the hypotheses of each
obligation.
-/

namespace Sys2Proof.Tests

open Sys2Proof.Machine

/-! ## Helpers -/

/-- The reset state of a build with `W = 8`, `CAP = 8` and the given logic unit, with some registers written. -/
def start (logic : Bool) (vs : List (VReg × Number)) (xs : List (XReg × Word64)) : State :=
  xs.foldl (fun s p => s.writeX p.1 p.2)
    (vs.foldl (fun s p => s.writeV p.1 p.2) (State.resetWith { Params.vectors with logicPresent := logic }))

/-- The state with one held command on the port. -/
def offering (s : State) (w : Word32) (din : Word64) : State := { s with offers := [.command w din .hold] }

/-- The state after a fault of an earlier command. -/
def faultedBy (s : State) (c : FaultCode) (w : Word32) : State :=
  { s with faulted := true, faultCode := c, faultCmd := w }

/-- What holds after one step, if the step answers a next state. -/
def next (s : State) (check : State → Bool) : Bool :=
  match step s with
  | .next t => check t
  | .fault _ => false
  | .refused _ => false

/-- What holds after the step that performs a command. -/
def after (s : State) (w : Word32) (din : Word64) (check : State → Bool) : Bool := next (offering s w din) check

/-! ## WellFormed smoke: a term each check refuses, and its neighbour that it lets pass -/

theorem test_wellFormed_adds_same : (Instr.adds 3 3 1 2).wellFormed true = false := by decide
theorem test_wellFormed_subs_same : (Instr.subs 0 0 1 2).wellFormed true = false := by decide
theorem test_wellFormed_div_same : (Instr.div 15 15 1 2).wellFormed true = false := by decide
theorem test_wellFormed_adds_other : (Instr.adds 3 4 3 3).wellFormed false = true := by decide
theorem test_wellFormed_add_same_number : (Instr.add 3 3 1 2).wellFormed false = true := by decide
theorem test_wellFormed_and_absent : (Instr.and 0 1 2).wellFormed false = false := by decide
theorem test_wellFormed_or_absent : (Instr.or 0 1 2).wellFormed false = false := by decide
theorem test_wellFormed_xor_absent : (Instr.xor 0 1 2).wellFormed false = false := by decide
theorem test_wellFormed_not_absent : (Instr.not 0 1).wellFormed false = false := by decide
theorem test_wellFormed_not_present : (Instr.not 0 1).wellFormed true = true := by decide

/-! ## Decode: words written out bit by bit from R72, R73 and R78 (`rd` 14, `rs1` 5, `rs2` 9, `re` 2, `imm16` 0x8123) -/

theorem test_decode_transfer :
    decode true 0b00000000_0000_0000_0000_1110_00000001 = .ok (.xld 14) ∧
    decode true 0b1000000100100011_0000_1110_00000010 = .ok (.xli 14 0x8123) ∧
    decode true 0b00000000_0000_0000_0101_0000_00000011 = .ok (.xrd 5) ∧
    decode true 0b1000000100100011_0000_1110_00000100 = .ok (.vzero 14 0x8123) ∧
    decode true 0b1000000100100011_0101_1110_00000101 = .ok (.vwr 14 5 0x8123) ∧
    decode true 0b1000000100100011_0101_1110_00000110 = .ok (.vrd 14 5 0x8123) ∧
    decode true 0b00000000_0000_0000_0101_1110_00000111 = .ok (.vlen 14 5) ∧
    decode true 0b00000000_0000_0000_0101_1110_00001000 = .ok (.vmov 14 5) ∧
    decode true 0b1000000100100011_0101_1110_00001001 = .ok (.vpad 14 5 0x8123) := by
  refine ⟨?_, ?_, ?_, ?_, ?_, ?_, ?_, ?_, ?_⟩ <;> decide

theorem test_decode_scalar :
    decode true 0b00000000_0010_1001_0101_1110_00010000 = .ok (.adds 14 2 5 9) ∧
    decode true 0b00000000_0010_1001_0101_1110_00010001 = .ok (.subs 14 2 5 9) ∧
    decode true 0b00000000_0000_1001_0101_1110_00010010 = .ok (.muls 14 5 9) := by
  refine ⟨?_, ?_, ?_⟩ <;> decide

theorem test_decode_compare :
    decode true 0b00000000_0000_1001_0101_1110_00011000 = .ok (.cmp 14 5 9) ∧
    decode true 0b00000000_0000_1001_0101_1110_00011001 = .ok (.eq 14 5 9) := by
  refine ⟨?_, ?_⟩ <;> decide

theorem test_decode_addsub :
    decode true 0b00000000_0010_1001_0101_1110_00100000 = .ok (.add 14 2 5 9) ∧
    decode true 0b00000000_0010_1001_0101_1110_00100001 = .ok (.sub 14 2 5 9) := by
  refine ⟨?_, ?_⟩ <;> decide

theorem test_decode_multiply :
    decode true 0b00000000_0000_1001_0101_1110_00101000 = .ok (.mulsc 14 5 9) ∧
    decode true 0b00000000_0000_1001_0101_1110_00101001 = .ok (.mul 14 5 9) := by
  refine ⟨?_, ?_⟩ <;> decide

theorem test_decode_divide :
    decode true 0b00000000_0010_1001_0101_1110_00110000 = .ok (.div 14 2 5 9) := by
  decide

theorem test_decode_shift :
    decode true 0b00000000_0000_1001_0101_1110_00111000 = .ok (.shl 14 5 9) ∧
    decode true 0b00000000_0000_1001_0101_1110_00111001 = .ok (.shr 14 5 9) ∧
    decode true 0b00000000_0010_1001_0101_1110_00111010 = .ok (.shrf 14 5 9 2) ∧
    decode true 0b00000000_0000_0000_0101_1110_00111100 = .ok (.lzc 14 5) ∧
    decode true 0b00000000_0000_0000_0101_1110_00111101 = .ok (.tzc 14 5) ∧
    decode true 0b00000000_0000_0000_0101_1110_00111110 = .ok (.bwid 14 5) := by
  refine ⟨?_, ?_, ?_, ?_, ?_, ?_⟩ <;> decide

theorem test_decode_logic :
    decode true 0b00000000_0000_1001_0101_1110_01000000 = .ok (.and 14 5 9) ∧
    decode true 0b00000000_0000_1001_0101_1110_01000001 = .ok (.or 14 5 9) ∧
    decode true 0b00000000_0000_1001_0101_1110_01000010 = .ok (.xor 14 5 9) ∧
    decode true 0b00000000_0000_0000_0101_1110_01000011 = .ok (.not 14 5) := by
  refine ⟨?_, ?_, ?_, ?_⟩ <;> decide

/-- R80 case 1: opcode 0x00, a hole of the map, and the last opcode. -/
theorem test_decode_unknown :
    decode true 0x00000000 = .error .unknownOpcode ∧ decode true 0x00000013 = .error .unknownOpcode ∧
      decode true 0x0000003B = .error .unknownOpcode ∧ decode true 0xFFFFFFFF = .error .unknownOpcode := by decide

/-- R80 case 2: `z` nonzero in format R. -/
theorem test_decode_z : decode true 0x01310220 = .error .nonzeroZ ∧ decode true 0x80000108 = .error .nonzeroZ := by decide

/-- R80 case 3: each unused field nonzero (`rd` of XRD, `rs1` of XLI, `rs2` of VMOV, `re` of CMP). -/
theorem test_decode_unused :
    decode true 0x00007103 = .error .nonzeroUnusedField ∧ decode true 0x00FF1102 = .error .nonzeroUnusedField ∧
      decode true 0x00010108 = .error .nonzeroUnusedField ∧ decode true 0x00110218 = .error .nonzeroUnusedField := by decide

/-- R80 case 4: one register named twice as a destination; `ADD` may (its files differ). -/
theorem test_decode_same_dest :
    decode true 0x00311310 = .error .sameDestTwice ∧ decode true 0x00432430 = .error .sameDestTwice ∧
      decode true 0x00310320 = .ok (.add 3 3 0 1) := by decide

/-- R80 case 5, R86. -/
theorem test_decode_logic_absent : decode false 0x00010240 = .error .logicAbsent := by decide

/-! ## One step on rows of spec/95_test_vectors.md -/

/-- spec/95_test_vectors.md row T1. -/
theorem test_xld_result_T1 :
    after (start true [] []) 0x00000201 0xFFFFFFFFFFFFFFF7 (fun t => t.readX 2 == 0xFFFFFFFFFFFFFFF7) = true := by decide

/-- spec/95_test_vectors.md row T3. -/
theorem test_xli_result_T3 :
    after (start true [] []) 0xFFFF0102 0 (fun t => t.readX 1 == 0xFFFF) = true := by decide

/-- spec/95_test_vectors.md row T4. -/
theorem test_xrd_result_T4 :
    after (start true [] [(7, 0x2C)]) 0x00007003 0 (fun t => t.doutPort == 0x2C) = true := by decide

/-- spec/95_test_vectors.md row T5. -/
theorem test_vzero_result_T5 :
    after (start true [] []) 0x00020004 0 (fun t => t.readV 0 == [0, 0]) = true := by decide

/-- spec/95_test_vectors.md row T7. -/
theorem test_vzero_faults_T7 :
    after (start true [] []) 0x00090004 0 (fun t => t.stat == 0x0009000400000401) = true := by decide

/-- spec/95_test_vectors.md row T8. -/
theorem test_vwr_result_T8 :
    after (start true [(0, [0, 0])] [(1, 0xFF)]) 0x00011005 0 (fun t => t.readV 0 == [0, 0xFF]) = true := by decide

/-- spec/95_test_vectors.md row T11. -/
theorem test_vwr_faults_T11 :
    after (start true [(0, [0])] [(1, 0x100)]) 0x00031005 0 (fun t => t.stat == 0x0003100500000601) = true := by decide

/-- spec/95_test_vectors.md row T12. -/
theorem test_vrd_result_T12 :
    after (start true [(0, [0, 0xFF])] []) 0x00010206 0 (fun t => t.readX 2 == 0xFF) = true := by decide

/-- spec/95_test_vectors.md row T13. -/
theorem test_vrd_faults_T13 :
    after (start true [(0, [0, 0xFF])] []) 0x00020206 0 (fun t => t.stat == 0x0002020600000501) = true := by decide

/-- spec/95_test_vectors.md row T14. -/
theorem test_vlen_result_T14 :
    after (start true [(0, [0, 0xFF])] []) 0x00000307 0 (fun t => t.readX 3 == 2) = true := by decide

/-- spec/95_test_vectors.md row T15. -/
theorem test_vmov_result_T15 :
    after (start true [(0, [0, 0xFF])] []) 0x00000108 0 (fun t => t.readV 1 == [0, 0xFF]) = true := by decide

/-- spec/95_test_vectors.md row T16. -/
theorem test_vpad_result_T16 :
    after (start true [(0, [7])] []) 0x00040109 0 (fun t => t.readV 1 == [7, 0, 0, 0]) = true := by decide

/-- spec/95_test_vectors.md row T17. -/
theorem test_vpad_faults_T17 :
    after (start true [(0, [7, 1])] []) 0x00010109 0 (fun t => t.stat == 0x0001010900000701) = true := by decide

/-- spec/95_test_vectors.md row S1. -/
theorem test_adds_result_S1 :
    after (start true [] [(1, 0xC8), (2, 0x64)]) 0x00421310 0 (fun t => t.readX 3 == 0x2C && t.readX 4 == 1) = true := by decide

/-- spec/95_test_vectors.md row S12. -/
theorem test_adds_faults_S12 :
    after (start true [] [(1, 1)]) 0x00311310 0 (fun t => t.stat == 0x0031131000000101) = true := by decide

/-- spec/95_test_vectors.md row S5. -/
theorem test_subs_result_S5 :
    after (start true [] [(1, 3), (2, 5)]) 0x00421311 0 (fun t => t.readX 3 == 0xFE && t.readX 4 == 1) = true := by decide

/-- spec/95_test_vectors.md row S6. -/
theorem test_subs_result_S6 :
    after (start true [] [(1, 0), (2, 0xFF)]) 0x00421311 0 (fun t => t.readX 3 == 1 && t.readX 4 == 1) = true := by decide

/-- spec/95_test_vectors.md row S8. -/
theorem test_muls_result_S8 :
    after (start true [] [(1, 0xFF), (2, 0xFF)]) 0x00021012 0 (fun t => t.readV 0 == [1, 0xFE]) = true := by decide

/-- spec/95_test_vectors.md row S13. -/
theorem test_muls_faults_S13 :
    after (start true [] [(1, 0x100), (2, 5)]) 0x00021012 0 (fun t => t.stat == 0x0002101200000601) = true := by decide

/-- spec/95_test_vectors.md row C2. -/
theorem test_cmp_result_C2 :
    after (start true [(0, [0xFF, 0]), (1, [0, 1])] []) 0x00010218 0 (fun t => t.readX 2 == 0xFFFFFFFFFFFFFFFF) = true := by decide

/-- spec/95_test_vectors.md row C6. -/
theorem test_cmp_faults_C6 :
    after (start true [(0, [5]), (1, [5, 0])] []) 0x00010218 0 (fun t => t.stat == 0x0001021800000201) = true := by decide

/-- spec/95_test_vectors.md row C7. -/
theorem test_eq_result_C7 :
    after (start true [(0, [5]), (1, [5, 0])] [(1, 7)]) 0x00010119 0 (fun t => t.readX 1 == 0) = true := by decide

/-- spec/95_test_vectors.md row C9. -/
theorem test_eq_result_C9 :
    after (start true [(0, []), (1, [])] []) 0x00010119 0 (fun t => t.readX 1 == 1) = true := by decide

/-- spec/95_test_vectors.md row A1. -/
theorem test_add_result_A1 :
    after (start true [(0, [0xFF, 0xFF]), (1, [1, 0])] []) 0x00310220 0 (fun t => t.readV 2 == [0, 0] && t.readX 3 == 1) = true := by decide

/-- spec/95_test_vectors.md row A6. -/
theorem test_add_result_A6 :
    after (start true [(0, [0x80, 0x80])] []) 0x00000020 0 (fun t => t.readV 0 == [0, 1] && t.readX 0 == 1) = true := by decide

/-- spec/95_test_vectors.md row A10. -/
theorem test_sub_result_A10 :
    after (start true [(0, [0, 1]), (1, [1, 0])] []) 0x00310221 0 (fun t => t.readV 2 == [0xFF, 0]) = true := by decide

/-- spec/95_test_vectors.md row A13. -/
theorem test_sub_faults_A13 :
    after (start true [(0, [1]), (1, [1, 0])] []) 0x00310221 0 (fun t => t.stat == 0x0031022100000201) = true := by decide

/-- spec/95_test_vectors.md row M1. -/
theorem test_mulsc_result_M1 :
    after (start true [(0, [0xFF, 0xFF])] [(1, 0xFF)]) 0x00001128 0 (fun t => t.readV 1 == [1, 0xFF, 0xFE]) = true := by decide

/-- spec/95_test_vectors.md row M6. -/
theorem test_mulsc_faults_M6 :
    after (start true [(0, [1, 2, 3, 4, 5, 6, 7, 8])] [(1, 0x100)]) 0x00001128 0 (fun t => t.stat == 0x0000112800000601) = true := by decide

/-- spec/95_test_vectors.md row M8. -/
theorem test_mul_result_M8 :
    after (start true [(0, [0xFF, 0xFF, 0xFF])] []) 0x00000129 0 (fun t => t.readV 1 == [1, 0, 0, 0xFE, 0xFF, 0xFF]) = true := by decide

/-- spec/95_test_vectors.md row M13. -/
theorem test_mul_faults_M13 :
    after (start true [(0, [1, 2, 3, 4, 5]), (1, [1, 2])] []) 0x00010229 0 (fun t => t.stat == 0x0001022900000201) = true := by decide

/-- spec/95_test_vectors.md row D13. -/
theorem test_div_result_D13 :
    after (start true [(0, [0xC8, 0x64]), (1, [3, 0])] []) 0x00110030 0 (fun t => t.readV 0 == [0x98, 0x21] && t.readV 1 == [0, 0]) = true := by decide

/-- spec/95_test_vectors.md row D11. -/
theorem test_div_faults_D11 :
    after (start true [(0, [1, 2]), (1, [0])] []) 0x00310230 0 (fun t => t.stat == 0x0031023000000201) = true := by decide

/-- spec/95_test_vectors.md row H1. -/
theorem test_shl_result_H1 :
    after (start true [(0, [0x81, 1])] [(1, 4)]) 0x00010138 0 (fun t => t.readV 1 == [0x10, 0x18]) = true := by decide

/-- spec/95_test_vectors.md row H8. -/
theorem test_shl_result_H8 :
    after (start true [(0, [0x12, 0x34])] [(1, 0x8000000000000000)]) 0x00010138 0 (fun t => t.readV 1 == [0, 0]) = true := by decide

/-- spec/95_test_vectors.md row H3. -/
theorem test_shr_result_H3 :
    after (start true [(0, [1, 0])] [(1, 0xFFFFFFFFFFFFFFF7)]) 0x00010139 0 (fun t => t.readV 1 == [0, 2]) = true := by decide

/-- spec/95_test_vectors.md row H9. -/
theorem test_shr_result_H9 :
    after (start true [(0, [0x12, 0x34, 0x56])] [(1, 0xC)]) 0x00010139 0 (fun t => t.readV 1 == [0x63, 5, 0]) = true := by decide

/-- spec/95_test_vectors.md row H15. -/
theorem test_shrf_result_H15 :
    after (start true [(0, [0x34, 0x12])] [(1, 0xFFFFFFFFFFFFFFFC), (2, 0xFF)]) 0x0021013A 0 (fun t => t.readV 1 == [0x40, 0x23]) = true := by decide

/-- spec/95_test_vectors.md row H17. -/
theorem test_shrf_result_H17 :
    after (start true [(0, [0x34, 0x12])] [(1, 0x14), (2, 0xF)]) 0x0021013A 0 (fun t => t.readV 1 == [0xF0, 0xF0]) = true := by decide

/-- spec/95_test_vectors.md row H18. -/
theorem test_lzc_result_H18 :
    after (start true [(0, [0xFF, 1, 0])] []) 0x0000013C 0 (fun t => t.readX 1 == 0xF) = true := by decide

/-- spec/95_test_vectors.md row H19. -/
theorem test_lzc_result_H19 :
    after (start true [(0, [0, 0, 0])] []) 0x0000013C 0 (fun t => t.readX 1 == 0x18) = true := by decide

/-- spec/95_test_vectors.md row H21. -/
theorem test_tzc_result_H21 :
    after (start true [(0, [0, 8])] []) 0x0000013D 0 (fun t => t.readX 1 == 0xB) = true := by decide

/-- spec/95_test_vectors.md row H22. -/
theorem test_tzc_result_H22 :
    after (start true [(0, [0, 0])] []) 0x0000013D 0 (fun t => t.readX 1 == 0x10) = true := by decide

/-- spec/95_test_vectors.md row H24. -/
theorem test_bwid_result_H24 :
    after (start true [(0, [1, 2, 3])] []) 0x0000013E 0 (fun t => t.readX 1 == 0x18) = true := by decide

/-- spec/95_test_vectors.md row G1. -/
theorem test_and_result_G1 :
    after (start true [(0, [0xF0, 0xF]), (1, [0x3C, 0x3C])] []) 0x00010240 0 (fun t => t.readV 2 == [0x30, 0xC]) = true := by decide

/-- spec/95_test_vectors.md row G8. -/
theorem test_and_faults_G8 :
    after (start false [(0, [0xF0, 0xF]), (1, [0x3C, 0x3C])] []) 0x00010240 0 (fun t => t.stat == 0x0001024000000101) = true := by decide

/-- spec/95_test_vectors.md row G2. -/
theorem test_or_result_G2 :
    after (start true [(0, [0xF0, 0xF]), (1, [0x3C, 0x3C])] []) 0x00010241 0 (fun t => t.readV 2 == [0xFC, 0x3F]) = true := by decide

/-- spec/95_test_vectors.md row G3. -/
theorem test_xor_result_G3 :
    after (start true [(0, [0xF0, 0xF]), (1, [0x3C, 0x3C])] []) 0x00010242 0 (fun t => t.readV 2 == [0xCC, 0x33]) = true := by decide

/-- spec/95_test_vectors.md row G4. -/
theorem test_not_result_G4 :
    after (start true [(0, [0xF0, 0xF])] []) 0x00000143 0 (fun t => t.readV 1 == [0xF, 0xF0]) = true := by decide

/-- spec/95_test_vectors.md row I9. -/
theorem test_not_faults_I9 :
    after (start false [(0, [1])] []) 0x00000043 0 (fun t => t.stat == 0x0000004300000101) = true := by decide

/-! ## The port and the step -/

/-- R307: a faulted core leaves the command on the port; R308: and keeps its status. -/
theorem test_step_faulted :
    after (faultedBy (start true [] []) .index 0x00020206) 0x00010102 0
      (fun t => t.readX 1 == 0 && t.offers.length == 1 && t.stat == 0x0002020600000501) = true := by decide

/-- R340, R341: `rst = 1` clears every register, `DOUT` and the fault. -/
theorem test_step_reset :
    next { faultedBy (start true [(0, [1])] [(1, 2)]) .index 0x00020206 with dout := 5, rst := [true] }
      (fun t => t.readV 0 == [] && t.readX 1 == 0 && t.dout == 0 && t.stat == 0 && t.cmdReady) = true := by decide

/-- R317: the idle core keeps its state. -/
theorem test_step_idle :
    next (start true [(0, [1])] [(1, 2)]) (fun t => t.readV 0 == [1] && t.readX 1 == 2 && t.stat == 0) = true := by decide

/-- R354: an offer changed while `cmd_ready = 0`. -/
theorem test_step_changed :
    step { faultedBy (start true [] []) .index 0 with offers := [.command 0x00010102 0 (.change 0)] } =
      .fault .offerChanged := rfl

/-- R41: an offer withdrawn while `rst = 1` is not accepted, and the port stands idle after it. -/
theorem test_step_withdrawn :
    next { start true [] [] with rst := [true], offers := [.command 0x00010102 0 (.withdraw 0), .command 1 2 .hold] }
      (fun t => !t.cmdValid && t.cmdReady && t.readX 1 == 0 && t.offers.length == 2) = true := by decide

/-- R80, R305: performing the word 0 raises `ILLEGAL_CMD` with `FAULT_CMD = 0`. -/
theorem test_step_illegal :
    after (start true [] [(1, 2)]) 0x00000000 0 (fun t => t.stat == 0x0000000000000101 && t.readX 1 == 2) = true := by decide

/-- R357: the run ends when the last command has completed, not before it. -/
theorem test_run_ended :
    (offering (start true [] []) 0x00010102 0).runEnded = false ∧
      after (start true [] []) 0x00010102 0 (fun t => t.runEnded) = true := by decide

/-- The word `withFetchWord` places is the one the next step performs (log entry 13). -/
theorem test_withFetchWord :
    next (State.reset.withFetchWord 32 0x00FF0102) (fun t => t.readX 1 == 255) = true := by decide

/-! ## The assembler (R83, R84, R87) -/

theorem test_asm_add : assemble "ADD v2, x3, v0, v1".toList = some (.command 0x00310220 0 .hold) := by decide
theorem test_asm_hex : assemble "VZERO v0, 0x2 ; two digits".toList = some (.command 0x00020004 0 .hold) := by decide
theorem test_asm_din : assemble "XLD x2 ; din=0xFF".toList = some (.command 0x00000201 0xFF .hold) := by decide
theorem test_asm_clrx : assemble "CLRX x4".toList = some (.command 0x00000402 0 .hold) := by decide
/-- Log entry 14: leading zeros in a register name are read; a register above 15 is not. -/
theorem test_asm_leading_zero :
    assemble "VMOV v03, v010".toList = some (.command 0x0000A308 0 .hold) ∧ assemble "VMOV v3, v16".toList = none := by
  decide

theorem test_asm_unknown : assemble "NOP".toList = none := by decide

/-! ## Witnesses: states and operands that meet the hypotheses of each obligation -/

/-- Every clause of OpcodeMapDecodes in format I, and the clause of opcode 0. -/
theorem witness_OpcodeMapDecodes_formatI :
    bitsOf 0x00000000 7 0 = 0 ∧ bitsOf 0xFFFFFF00 7 0 = 0 ∧
    FormatIFields 0b1000000100100011_0000_1110_00000010 0x02 14 0 0x8123 ∧
    FormatIFields 0b1000000100100011_0000_1110_00000100 0x04 14 0 0x8123 ∧
    FormatIFields 0b1000000100100011_0101_1110_00000101 0x05 14 5 0x8123 ∧
    FormatIFields 0b1000000100100011_0101_1110_00000110 0x06 14 5 0x8123 ∧
    FormatIFields 0b1000000100100011_0101_1110_00001001 0x09 14 5 0x8123 := by
  decide

/-- Every clause of OpcodeMapDecodes in format R; the two destinations 14 and 2 differ. -/
theorem witness_OpcodeMapDecodes_formatR :
    FormatRFields 0b00000000_0000_0000_0000_1110_00000001 0x01 14 0 0 0 ∧
    FormatRFields 0b00000000_0000_0000_0101_0000_00000011 0x03 0 5 0 0 ∧
    FormatRFields 0b00000000_0000_0000_0101_1110_00000111 0x07 14 5 0 0 ∧
    FormatRFields 0b00000000_0000_0000_0101_1110_00001000 0x08 14 5 0 0 ∧
    FormatRFields 0b00000000_0010_1001_0101_1110_00010000 0x10 14 5 9 2 ∧
    FormatRFields 0b00000000_0010_1001_0101_1110_00010001 0x11 14 5 9 2 ∧
    FormatRFields 0b00000000_0000_1001_0101_1110_00010010 0x12 14 5 9 0 ∧
    FormatRFields 0b00000000_0000_1001_0101_1110_00011000 0x18 14 5 9 0 ∧
    FormatRFields 0b00000000_0000_1001_0101_1110_00011001 0x19 14 5 9 0 ∧
    FormatRFields 0b00000000_0010_1001_0101_1110_00100000 0x20 14 5 9 2 ∧
    FormatRFields 0b00000000_0010_1001_0101_1110_00100001 0x21 14 5 9 2 ∧
    FormatRFields 0b00000000_0000_1001_0101_1110_00101000 0x28 14 5 9 0 := by
  refine ⟨?_, ?_, ?_, ?_, ?_, ?_, ?_, ?_, ?_, ?_, ?_, ?_⟩ <;> decide

theorem witness_OpcodeMapDecodes_formatR_rest :
    FormatRFields 0b00000000_0000_1001_0101_1110_00101001 0x29 14 5 9 0 ∧
    FormatRFields 0b00000000_0010_1001_0101_1110_00110000 0x30 14 5 9 2 ∧
    FormatRFields 0b00000000_0000_1001_0101_1110_00111000 0x38 14 5 9 0 ∧
    FormatRFields 0b00000000_0000_1001_0101_1110_00111001 0x39 14 5 9 0 ∧
    FormatRFields 0b00000000_0010_1001_0101_1110_00111010 0x3A 14 5 9 2 ∧
    FormatRFields 0b00000000_0000_0000_0101_1110_00111100 0x3C 14 5 0 0 ∧
    FormatRFields 0b00000000_0000_0000_0101_1110_00111101 0x3D 14 5 0 0 ∧
    FormatRFields 0b00000000_0000_0000_0101_1110_00111110 0x3E 14 5 0 0 ∧
    FormatRFields 0b00000000_0000_1001_0101_1110_01000000 0x40 14 5 9 0 ∧
    FormatRFields 0b00000000_0000_1001_0101_1110_01000001 0x41 14 5 9 0 ∧
    FormatRFields 0b00000000_0000_1001_0101_1110_01000010 0x42 14 5 9 0 ∧
    FormatRFields 0b00000000_0000_0000_0101_1110_01000011 0x43 14 5 0 0 := by
  refine ⟨?_, ?_, ?_, ?_, ?_, ?_, ?_, ?_, ?_, ?_, ?_, ?_⟩ <;> decide

theorem witness_DecodeOfEncode :
    (Instr.div 4 5 2 3).wellFormed true = true ∧ (Instr.adds 0 15 0 0).wellFormed false = true ∧
      (Instr.xor 15 15 15).wellFormed true = true ∧ (Instr.xli 15 0xFFFF).wellFormed false = true :=
  ⟨rfl, rfl, rfl, rfl⟩

theorem witness_LegalWordsEncodeBack :
    decode true 0x00532430 = .ok (.div 4 5 2 3) ∧ decode false 0xFFFF0F02 = .ok (.xli 15 0xFFFF) := ⟨rfl, rfl⟩

/-- Each case of R80, on a state that performs the word. -/
theorem witness_IllegalWordsRaise :
    ∀ w ∈ [(0x00000000 : Word32), 0x01310220, 0x00007103, 0x00FF1102, 0x00010108, 0x00110218, 0x00311310, 0x00010240],
      (offering (start false [] []) w 0).offers = .command w 0 .hold :: [] ∧
        (offering (start false [] []) w 0).rstLevel = false ∧ (offering (start false [] []) w 0).faulted = false ∧
        IllegalWord (offering (start false [] []) w 0).params.logicPresent w := by
  intro w hw
  fin_cases hw <;> exact ⟨rfl, rfl, rfl, by decide⟩

theorem witness_AssemblerReadsItsText : ∀ xd, Instr.xli 15 0xFFFF ≠ .xld xd := fun _ h => Instr.noConfusion h

theorem witness_ResetMeetsTheInvariant :
    Params.Valid { Params.vectors with cap := 2 } ∧ Params.Valid { Params.vectors with width := .w64, cap := 65535 } := by
  decide

/-- A number register at capacity with the largest digits, and a scalar at its largest value. -/
def full : State :=
  offering (start true [(0, [0xFF, 0xFF, 0xFF, 0xFF, 0xFF, 0xFF, 0xFF, 0xFF])] [(1, 0xFFFFFFFFFFFFFFFF)]) 0x00000108 0

theorem witness_StepKeepsTheInvariant : full.Inv ∧ ∃ t, step full = .next t :=
  ⟨⟨by decide, by decide, by decide, by decide⟩, _, rfl⟩

theorem witness_StepKeepsTheInvariant_faulted :
    (faultedBy full .index 0x00020206).Inv ∧ ∃ t, step (faultedBy full .index 0x00020206) = .next t :=
  ⟨⟨by decide, by decide, by decide, by decide⟩, _, rfl⟩

theorem witness_StepKeepsTheParameters : ∃ t, step full = .next t := ⟨_, rfl⟩

theorem witness_StepPerformsTheOfferedCommand :
    full.offers = .command 0x00000108 0 .hold :: [] ∧ full.rstLevel = false ∧ full.faulted = false ∧
      decode full.params.logicPresent 0x00000108 = .ok (.vmov 1 0) := by decide

theorem witness_FaultedCoreAcceptsNothing :
    (faultedBy full .index 0).faulted = true ∧ (faultedBy full .index 0).rstLevel = false ∧
      (faultedBy full .index 0).offers = .command 0x00000108 0 .hold :: [] := by decide

/-- Reset with a held command and with nothing on the port, and `rst` back at 0 after it. -/
theorem witness_ResetInputResets :
    State.rstLevel { full with rst := [true] } = true ∧ State.offerChanges { full with rst := [true] } = false ∧
      State.rstLevel { State.reset with rst := [true, false] } = true ∧
      State.offerChanges { State.reset with rst := [true, false] } = false := by decide

/-- A fault that stays, and a fault that reset ends. -/
theorem witness_OnlyResetLeavesAFault :
    next (faultedBy full .index 0) (fun t => t.faulted) = true ∧ (faultedBy full .index 0).rstLevel = false ∧
      next { faultedBy full .index 0 with rst := [true] } (fun t => !t.faulted) = true := by decide

theorem witness_IdleKeepsTheState :
    (start true [(0, [1])] []).cmdValid = false ∧ (start true [(0, [1])] []).rstLevel = false ∧
      State.cmdValid { start true [(0, [1])] [] with offers := [.idle] } = false := by decide

theorem witness_StepStopsOnlyOnAChangedOffer :
    State.rstLevel { State.reset with rst := [true], offers := [.command 1 0 (.change 0)] } = true ∧
      step { State.reset with rst := [true], offers := [.command 1 0 (.change 0)] } = .fault .offerChanged :=
  ⟨rfl, rfl⟩

/-- Every way to wait, on a core that a fault, and on one that reset, keeps from accepting. -/
theorem witness_UnacceptedOffersWait :
    ∀ how ∈ [Waiting.hold, .withdraw 0, .withdraw 1, .change 1],
      State.cmdReady { faultedBy State.reset .index 0 with offers := [.command 1 0 how] } = false ∧
        State.rstLevel { faultedBy State.reset .index 0 with offers := [.command 1 0 how] } = false ∧
        State.cmdReady { State.reset with rst := [true], offers := [.command 1 0 how] } = false ∧ how ≠ .change 0 := by
  decide

/-- Registers for every fault condition: `V0` and `V1` of two digits, `V2` of one, `V3` empty, `V4` of eight, `V5` of five,
`V6` zero; `X1` a digit, `X2` and `X3` no digits at `W = 8` (`X2` the least such value). -/
def bench (logic : Bool) : State :=
  start logic [(0, [0xFF, 0xFF]), (1, [1, 0]), (2, [7]), (4, [1, 2, 3, 4, 5, 6, 7, 8]), (5, [1, 2, 3, 4, 5]), (6, [0, 0])]
    [(1, 0xFF), (2, 0x100), (3, 0xFFFFFFFFFFFFFFFF)]

/-- Each fault of R300, by each command that raises it. -/
theorem witness_CommandsReportTheFirstFault_some :
    (∀ i ∈ [Instr.adds 1 1 1 1, .subs 2 2 1 1, .div 0 0 0 1], firstFault i (bench true) = some .illegalCmd) ∧
    (∀ i ∈ [Instr.and 0 0 2, .or 0 0 2, .xor 0 0 2, .not 0 0], firstFault i (bench false) = some .illegalCmd) ∧
    (∀ i ∈ [Instr.adds 0 1 2 1, .subs 0 1 1 2, .muls 0 1 3, .mulsc 0 2 4, .shrf 0 0 1 3, .vwr 3 2 0],
      firstFault i (bench true) = some .digitRange) ∧
    (∀ i ∈ [Instr.cmp 0 0 2, .add 0 0 0 2, .sub 0 0 2 3, .mul 0 4 0, .div 0 1 0 3, .and 0 0 2, .or 0 2 0, .xor 0 3 2],
      firstFault i (bench true) = some .lenMismatch) ∧
    (∀ i ∈ [Instr.vwr 0 1 2, .vrd 0 3 0, .vrd 0 0 0xFFFF], firstFault i (bench true) = some .index) ∧
    (∀ i ∈ [Instr.vpad 1 0 1, .vpad 1 4 0], firstFault i (bench true) = some .padLength) ∧
    (∀ i ∈ [Instr.vzero 0 9, .vpad 0 0 9, .mulsc 0 1 4, .mul 0 5 5], firstFault i (bench true) = some .capacity) ∧
    (∀ i ∈ [Instr.div 0 1 0 6, .div 0 1 3 3], firstFault i (bench true) = some .divByZero) := by decide

/-- Each command with no fault, at the edges of its checks. -/
def faultless : List Instr :=
  [.xld 0, .xli 0 0xFFFF, .xrd 3, .vzero 0 8, .vwr 0 1 1, .vrd 0 4 7, .vlen 0 3, .vmov 0 4, .vpad 0 0 2, .vpad 0 0 8,
    .adds 1 2 1 1, .subs 1 2 1 1, .muls 0 1 1, .cmp 0 0 1, .eq 0 0 4] ++
  [.add 0 1 0 1, .sub 0 1 0 1, .mulsc 0 1 5, .mul 0 0 1, .div 0 1 0 1, .shl 0 0 3, .shr 0 0 2, .shrf 0 0 3 1, .lzc 0 3,
    .tzc 0 6, .bwid 0 3, .and 0 0 1, .or 0 0 1, .xor 0 0 1, .not 0 0]

theorem witness_CommandsReportTheFirstFault_none : ∀ i ∈ faultless, firstFault i (bench true) = none := by decide

theorem witness_DigitReadChecksItsRange :
    ((bench true).params.W < 64 ∧ ((bench true).readX 2).toNat / 2 ^ (bench true).params.W ≠ 0) ∧
      ((bench true).readX 1).toNat / 2 ^ (bench true).params.W = 0 ∧
      (State.resetWith { Params.vectors with width := .w64 }).params.W = 64 ∧
      (Instr.mulsc 0 2 4).wellFormed (bench true).params.logicPresent = true ∧ 2 ∈ digitOperands (.mulsc 0 2 4) := by decide

theorem witness_CommandsWriteOnlyTheirDestinations : firstFault (.div 0 1 0 1) (bench true) = none := by decide

/-- `XLI` writes no `DOUT`, and a step with `XRD x1` changes `DOUT`. -/
theorem witness_OnlyXrdWritesDout :
    (∀ xs, Instr.xli 0 1 ≠ .xrd xs) ∧ (offering (bench true) 0x00001003 0).rstLevel = false ∧
      next (offering (bench true) 0x00001003 0) (fun t => t.dout != (offering (bench true) 0x00001003 0).dout) = true := by
  decide

theorem witness_NoCommandReadsTheStatus :
    firstFault (.mul 0 0 1) (bench true) = none ∧ ∃ t, exec (.mul 0 0 1) (bench true) = .next t :=
  ⟨by decide, _, rfl⟩

theorem witness_DinIsReadOnlyByXld :
    (∀ xd, Instr.vmov 1 0 ≠ .xld xd) ∧ full.offers = .command 0x00000108 0 .hold :: [] ∧
      ∃ t, exec (.vmov 1 0) full = .next t :=
  ⟨by decide, by decide, _, rfl⟩

/-- The two sides of `CAP`. -/
theorem witness_VzeroMakesZeros :
    (8 : Imm16).toNat ≤ (bench true).params.cap ∧ (0 : Imm16).toNat ≤ (bench true).params.cap ∧
      (bench true).params.cap < (9 : Imm16).toNat := by decide

theorem witness_VwrWritesOneDigit :
    ((bench true).readX 1).toNat < 2 ^ (bench true).params.W ∧ (7 : Imm16).toNat < ((bench true).readV 4).length := by decide

theorem witness_VrdReadsOneDigit :
    DigitsOk (bench true).params.W ((bench true).readV 0) ∧ (1 : Imm16).toNat < ((bench true).readV 0).length := by decide

theorem witness_VlenAndVmovReadAWholeNumber : ((bench true).readV 4).length ≤ 65535 := by decide

theorem witness_VpadKeepsTheValue :
    ((bench true).readV 0).length ≤ (2 : Imm16).toNat ∧ (2 : Imm16).toNat ≤ (bench true).params.cap ∧
      ((bench true).readV 3).length ≤ (8 : Imm16).toNat ∧ (8 : Imm16).toNat ≤ (bench true).params.cap := by decide

/-- The largest digits, for the three scalar commands. -/
theorem witness_AddsIsExact : (1 : XReg) ≠ 2 ∧ ((bench true).readX 1).toNat < 2 ^ (bench true).params.W := by decide

theorem witness_SubsIsExact :
    (1 : XReg) ≠ 2 ∧ ((bench true).readX 0).toNat < 2 ^ (bench true).params.W ∧
      ((bench true).readX 1).toNat < 2 ^ (bench true).params.W := by decide

theorem witness_MulsIsExact : ((bench true).readX 1).toNat < 2 ^ (bench true).params.W := by decide

theorem witness_CmpOrdersByValue :
    ((bench true).readV 0).length = ((bench true).readV 1).length ∧
      DigitsOk (bench true).params.W ((bench true).readV 0) ∧ DigitsOk (bench true).params.W ((bench true).readV 1) := by
  decide

theorem witness_EqualityAgreesWithCompare : ([1, 2] : Number).length = ([1, 3] : Number).length := by decide

theorem witness_AddIsExactModuloItsWidth :
    ((bench true).readV 0).length = ((bench true).readV 1).length ∧
      DigitsOk (bench true).params.W ((bench true).readV 0) ∧ DigitsOk (bench true).params.W ((bench true).readV 1) ∧
      2 ^ (8 * 2) ≤ val 8 ((bench true).readV 0) + val 8 ((bench true).readV 1) := by decide

theorem witness_SubIsExactModuloItsWidth :
    ((bench true).readV 1).length = ((bench true).readV 0).length ∧
      DigitsOk (bench true).params.W ((bench true).readV 1) ∧ DigitsOk (bench true).params.W ((bench true).readV 0) ∧
      val 8 ((bench true).readV 1) < val 8 ((bench true).readV 0) := by decide

theorem witness_RunningCarryAndBorrowStayBelowTwo : 0xFF < 2 ^ 8 ∧ 1 ≤ 1 := by decide

theorem witness_RowCarryStaysBelowMaxd : 0 < 8 ∧ 0xFF < 2 ^ 8 ∧ 0xFE ≤ 2 ^ 8 - 2 := by decide

/-- A result of exactly `CAP` digits. -/
theorem witness_MulscIsExact :
    let s := start true [(0, [1, 2, 3, 4, 5, 6, 0xFF])] [(1, 0xFF)]
    (s.readX 1).toNat < 2 ^ s.params.W ∧ DigitsOk s.params.W (s.readV 0) ∧ (s.readV 0).length + 1 ≤ s.params.cap := by decide

theorem witness_SchoolbookIsTheExactProduct :
    0 < 8 ∧ ([0xFF, 0xFF] : Number).length = ([0xFF, 0] : Number).length ∧ DigitsOk 8 [0xFF, 0xFF] ∧ DigitsOk 8 [0xFF, 0] ∧
      1 < ([0xFF, 0xFF] : Number).length := by decide

/-- A product of exactly `CAP` digits. -/
theorem witness_MulWritesTheExactProduct :
    let s := start true [(0, [0xFF, 0xFF, 0xFF, 0xFF]), (1, [0xFF, 0, 0, 0])] []
    (s.readV 0).length = (s.readV 1).length ∧ 2 * (s.readV 0).length ≤ s.params.cap ∧ DigitsOk s.params.W (s.readV 0) ∧
      DigitsOk s.params.W (s.readV 1) := by decide

/-- Divisor 1 (`V1`), and a divisor above the dividend. -/
theorem witness_DivIsExact :
    (0 : VReg) ≠ 1 ∧ ((bench true).readV 0).length = ((bench true).readV 1).length ∧
      DigitsOk (bench true).params.W ((bench true).readV 0) ∧ DigitsOk (bench true).params.W ((bench true).readV 1) ∧
      1 ≤ val (bench true).params.W ((bench true).readV 1) ∧ 1 ≤ val (bench true).params.W ((bench true).readV 0) := by decide

theorem witness_BisectionBoundsEnclose :
    0 < 8 ∧ ([0xC8, 0x64] : Number).length = ([2, 0] : Number).length ∧ DigitsOk 8 [0xC8, 0x64] ∧ DigitsOk 8 [2, 0] ∧
      2 ≤ val 8 [2, 0] ∧ 2 ≤ 5 - 3 := by decide

theorem witness_BisectionComputesTheDivision :
    0 < 8 ∧ ([0xC8, 0x64] : Number).length = ([3, 0] : Number).length ∧ DigitsOk 8 [0xC8, 0x64] ∧ DigitsOk 8 [3, 0] ∧
      2 ≤ val 8 [3, 0] := by decide

/-- A positive, a negative and the most negative count (X3 is -1). -/
theorem witness_ShlShiftsTheValue :
    DigitsOk (bench true).params.W ((bench true).readV 0) ∧ ((bench true).readX 3).toInt < 0 ∧
      ¬ ((bench true).readX 2).toInt < 0 := by decide

theorem witness_ShrShiftsTheValue :
    DigitsOk (bench true).params.W ((bench true).readV 4) ∧ ((bench true).readX 3).toInt < 0 ∧
      ¬ ((bench true).readX 0).toInt < 0 := by decide

theorem witness_ShrfShiftsInTheFill :
    DigitsOk (bench true).params.W ((bench true).readV 0) ∧ ((bench true).readX 1).toNat < 2 ^ (bench true).params.W ∧
      ((bench true).readX 3).toInt < 0 ∧ ¬ ((bench true).readX 2).toInt < 0 := by decide

/-- Each clause: `t` at the leading zeros, at the trailing zeros, and at the total width. -/
theorem witness_ShiftIdentities :
    0 < 8 ∧ DigitsOk 8 [0, 8] ∧ 4 ≤ numberLeadingZeroBitCount 8 [0, 8] ∧ 11 ≤ numberTrailingZeroBitCount 8 [0, 8] ∧
      8 * ([0, 8] : Number).length ≤ 16 := by decide

theorem witness_LzcCountsFromTheTop :
    ((bench true).readV 4).length ≤ 65535 ∧ DigitsOk (bench true).params.W ((bench true).readV 4) := by decide

/-- A zero value (V6) and a nonzero one (V4). -/
theorem witness_TzcCountsFromTheBottom :
    ((bench true).readV 6).length ≤ 65535 ∧ DigitsOk (bench true).params.W ((bench true).readV 6) ∧
      val (bench true).params.W ((bench true).readV 6) = 0 ∧ val (bench true).params.W ((bench true).readV 4) ≠ 0 := by decide

theorem witness_BwidIsTheTotalWidth : ((bench true).readV 4).length ≤ 65535 := by decide

theorem witness_LogicIsDigitwise :
    (bench true).params.logicPresent = true ∧ ((bench true).readV 0).length = ((bench true).readV 1).length ∧
      ((bench true).readV 0)[1]? = some 0xFF ∧ ((bench true).readV 1)[1]? = some 0 := by decide

theorem witness_NotComplementsTheValue :
    (bench true).params.logicPresent = true ∧ DigitsOk (bench true).params.W ((bench true).readV 4) := by decide

theorem witness_AbsentLogicIsIllegal :
    (∀ w ∈ [(0x00000040 : Word32), 0x00F1F241, 0x00010242, 0x01000043], bitsOf w 7 0 ∈ [0x40, 0x41, 0x42, 0x43]) ∧
      (bench false).params.logicPresent = false :=
  ⟨fun w hw => by fin_cases hw <;> decide, rfl⟩

end Sys2Proof.Tests
end

namespace Sys2Proof.Machine

/-! ## What a command can answer -/

/-- The form of every meaning: the result is a fault entry on `s` (R305, R306), or the command completed in a state that
meets `P`. -/
inductive FaultsOr (s : State) (P : State → Prop) : Result → Prop where
  | faulted {c : FaultCode} (hc : c ≠ .none) : FaultsOr s P (.next (s.takeFault c))
  | completed {t : State} (h : P t) : FaultsOr s P (.next t)

/-- A check passes on the form of what it guards. `requireDistinct`, `requireLogic` and `withDigit` are such checks. -/
theorem FaultsOr.check {s : State} {P : State → Prop} {ok : Prop} [Decidable ok] {c : FaultCode} {k : Result}
    (hc : c ≠ .none) (hk : ok → FaultsOr s P k) : FaultsOr s P (require ok c s k) := by
  by_cases ho : ok
  · rw [require_true ho]
    exact hk ho
  · rw [require_false ho]
    exact .faulted hc

theorem FaultsOr.imp {s : State} {P Q : State → Prop} {r : Result} (h : FaultsOr s P r) (hPQ : ∀ t, P t → Q t) :
    FaultsOr s Q r := by
  cases h with
  | faulted hc => exact .faulted hc
  | completed ht => exact .completed (hPQ _ ht)

/-- `t` differs from `s` at most in the destinations R78 gives the command, `DOUT` being the destination of `XRD` (R57, R27). -/
structure WritesOnlyDests (i : Instr) (s t : State) : Prop where
  frame : Frame (vDests i) (xDests i) (s.writeDout t.dout) t
  dout : (∀ xs, i ≠ .xrd xs) → t.dout = s.dout

theorem WritesOnlyDests.of_frame {i : Instr} {s t : State} (h : Frame (vDests i) (xDests i) s t) : WritesOnlyDests i s t where
  frame := ⟨h.numbers, h.scalars, rfl, h.faulted, h.faultCode, h.faultCmd, h.params, h.offers, h.rst⟩
  dout _ := h.dout

/-- Every command answers a next state: a fault entry, or a state that differs in the command's destinations only. -/
theorem exec_faultsOr_writesOnlyDests (i : Instr) (s : State) : FaultsOr s (WritesOnlyDests i s) (exec i s) :=
  match i with
  | .xrd xs => .completed ⟨Frame.refl _, fun h => absurd rfl (h xs)⟩
  | .xld _ | .xli _ _ | .vlen _ _ | .eq _ _ _ | .lzc _ _ | .tzc _ _ | .bwid _ _ =>
    .completed (.of_frame (frame_writeX s _ _))
  | .vmov _ _ | .shl _ _ _ | .shr _ _ _ => .completed (.of_frame (frame_writeV s _ _))
  | .vrd _ _ _ | .cmp _ _ _ => .check (by decide) fun _ => .completed (.of_frame (frame_writeX s _ _))
  | .vzero _ _ | .shrf _ _ _ _ | .not _ _ => .check (by decide) fun _ => .completed (.of_frame (frame_writeV s _ _))
  | .vwr _ _ _ | .vpad _ _ _ | .muls _ _ _ | .mulsc _ _ _ | .mul _ _ _ | .and _ _ _ | .or _ _ _ | .xor _ _ _ =>
    .check (by decide) fun _ => .check (by decide) fun _ => .completed (.of_frame (frame_writeV s _ _))
  | .add _ _ _ _ | .sub _ _ _ _ =>
    .check (by decide) fun _ => .completed (.of_frame ((frame_writeV s _ _).trans (frame_writeX _ _ _)))
  | .adds _ _ _ _ | .subs _ _ _ _ =>
    .check (by decide) fun _ => .check (by decide) fun _ => .check (by decide) fun _ =>
      .completed (.of_frame ((frame_writeX s _ _).trans (frame_writeX _ _ _)))
  | .div _ _ _ _ =>
    .check (by decide) fun _ => .check (by decide) fun _ => .check (by decide) fun _ =>
      .completed (.of_frame ((frame_writeV s _ _).trans (frame_writeV _ _ _)))

/-- The command on the port faults, or its word decodes to a command that writes its destinations only. -/
theorem perform_faultsOr_writesOnlyDests (s : State) :
    FaultsOr s (fun t => ∃ i, decode s.params.logicPresent s.cmd = .ok i ∧ WritesOnlyDests i s t) s.perform := by
  unfold State.perform
  split
  next => exact .faulted (by decide)
  next i hi => exact (exec_faultsOr_writesOnlyDests i s).imp fun _ hw => ⟨i, hi, hw⟩

/-! ## The build parameters (spec/00_scope.md R7) -/

/-- Performing the command on the port, faulting or not, keeps the build. -/
theorem perform_params {s t : State} (h : s.perform = .next t) : t.params = s.params := by
  have hp := perform_faultsOr_writesOnlyDests s
  rw [h] at hp
  cases hp with
  | faulted => rfl
  | completed hw =>
    obtain ⟨_, -, hw⟩ := hw
    exact hw.frame.params

/-- Settles O10, by the cases of a step: reset and a step that accepts nothing keep the build by their definitions, a performed
command by its frame. -/
theorem stepKeepsTheParameters : Obligations.StepKeepsTheParameters := by
  unfold Obligations.StepKeepsTheParameters
  intro s t h
  rcases step_cases h with ⟨-, rfl⟩ | ⟨-, -, -, u, hu, rfl⟩ | ⟨-, -, rfl⟩
  · simp
  · simpa using perform_params hu
  · simp

end Sys2Proof.Machine

namespace Sys2Proof.Machine

/-! ## Results a number register can hold (spec/10_state.md R21) -/

theorem digitsOk_nil (W : Nat) : DigitsOk W [] := List.forall_mem_nil _

theorem digitsOk_cons {W d : Nat} {ds : Number} : DigitsOk W (d :: ds) ↔ d < 2 ^ W ∧ DigitsOk W ds :=
  List.forall_mem_cons

theorem addScalars_fst_lt (W a b : Nat) : (addScalars W a b).1 < 2 ^ W := Nat.mod_lt _ (Nat.two_pow_pos W)

theorem subtractScalars_fst_lt (W a b : Nat) : (subtractScalars W a b).1 < 2 ^ W := by
  have hpos : (0 : Int) < (2 ^ W : Nat) := by exact_mod_cast Nat.two_pow_pos W
  have hlt := Int.emod_lt_of_pos ((a : Int) - b) hpos
  unfold subtractScalars
  omega

theorem length_sumFrom_le (W c : Nat) (A B : Number) : (sumFrom W c A B).1.length ≤ A.length := by
  induction A generalizing c B with
  | nil => simp [sumFrom]
  | cons a as ih => cases B <;> simp [sumFrom, ih]

theorem digitsOk_sumFrom (W c : Nat) (A B : Number) : DigitsOk W (sumFrom W c A B).1 := by
  induction A generalizing c B with
  | nil => exact digitsOk_nil W
  | cons a as ih =>
    cases B with
    | nil => exact digitsOk_nil W
    | cons b bs => exact digitsOk_cons.mpr ⟨addScalars_fst_lt W _ b, ih _ bs⟩

theorem length_subtractFrom_le (W w : Nat) (A B : Number) : (subtractFrom W w A B).1.length ≤ A.length := by
  induction A generalizing w B with
  | nil => simp [subtractFrom]
  | cons a as ih => cases B <;> simp [subtractFrom, ih]

theorem digitsOk_subtractFrom (W w : Nat) (A B : Number) : DigitsOk W (subtractFrom W w A B).1 := by
  induction A generalizing w B with
  | nil => exact digitsOk_nil W
  | cons a as ih =>
    cases B with
    | nil => exact digitsOk_nil W
    | cons b bs => exact digitsOk_cons.mpr ⟨subtractScalars_fst_lt W _ b, ih _ bs⟩

/-- The running carry of R160 is at most the exact product with the carry before, one digit down. -/
theorem mul_rowCarry_le {W c : Nat} (a b : Nat) (hc : c ≤ 2 ^ W) :
    2 ^ W * (a * b / 2 ^ W + (addScalars W (a * b % 2 ^ W) c).2) ≤ a * b + c := by
  obtain ⟨-, -, hadd⟩ := addScalars_spec (Nat.mod_lt (a * b) (Nat.two_pow_pos W)) hc
  have hmul := Nat.div_add_mod (a * b) (2 ^ W)
  rw [Nat.mul_add]
  omega

/-- The running carry of R160 stays a digit. -/
theorem rowCarry_lt {W a b c : Nat} (ha : a < 2 ^ W) (hb : b < 2 ^ W) (hc : c < 2 ^ W) :
    a * b / 2 ^ W + (addScalars W (a * b % 2 ^ W) c).2 < 2 ^ W := by
  refine Nat.lt_of_mul_lt_mul_left (a := 2 ^ W) (lt_of_le_of_lt (mul_rowCarry_le a b hc.le) ?_)
  calc a * b + c < a * 2 ^ W + 2 ^ W := Nat.add_lt_add_of_le_of_lt (Nat.mul_le_mul_left a hb.le) hc
    _ = (a + 1) * 2 ^ W := (Nat.succ_mul a _).symm
    _ ≤ 2 ^ W * 2 ^ W := Nat.mul_le_mul_right _ ha

@[simp] theorem length_multiplyByScalarFrom (W a c : Nat) (B : Number) :
    (multiplyByScalarFrom W a c B).length = B.length + 1 := by
  induction B generalizing c with
  | nil => rfl
  | cons b bs ih => simp [multiplyByScalarFrom, ih]

theorem digitsOk_multiplyByScalarFrom {W a c : Nat} {B : Number} (ha : a < 2 ^ W) (hB : DigitsOk W B) (hc : c < 2 ^ W) :
    DigitsOk W (multiplyByScalarFrom W a c B) := by
  induction B generalizing c with
  | nil => exact digitsOk_cons.mpr ⟨hc, digitsOk_nil W⟩
  | cons b bs ih =>
    obtain ⟨hb, hbs⟩ := digitsOk_cons.mp hB
    exact digitsOk_cons.mpr ⟨addScalars_fst_lt W _ c, ih hbs (rowCarry_lt ha hb hc)⟩

/-- The accumulation of R163 keeps the length it starts with, and its digits are those of a sum. -/
theorem multiply_length_le_and_digitsOk (W : Nat) (A B : Number) :
    (multiply W A B).length ≤ 2 * A.length ∧ DigitsOk W (multiply W A B) :=
  List.foldlRecOn (motive := fun P => P.length ≤ 2 * A.length ∧ DigitsOk W P) (List.range A.length) _
    ⟨by simp, digitsOk_zeros W _⟩
    fun P hP i _ => ⟨(length_sumFrom_le W 0 P _).trans hP.1, digitsOk_sumFrom W 0 P _⟩

theorem digitsOk_multiplyScalars {W a b : Nat} (ha : a < 2 ^ W) (hb : b < 2 ^ W) : DigitsOk W (multiplyScalars W a b) := by
  have hlow : a * b % 2 ^ W < 2 ^ W := Nat.mod_lt _ (Nat.two_pow_pos W)
  have hhigh : a * b / 2 ^ W < 2 ^ W := Nat.div_lt_of_lt_mul (Nat.mul_lt_mul'' ha hb)
  exact digitsOk_cons.mpr ⟨hlow, digitsOk_cons.mpr ⟨hhigh, digitsOk_nil W⟩⟩

section
variable {p : Params} {N : Number} (hN : NumberOk p N)
include hN

theorem numberOk_set (k : Nat) {d : Nat} (hd : d < 2 ^ p.W) : NumberOk p (N.set k d) := by
  refine ⟨by simpa using hN.1, fun e he => ?_⟩
  rcases List.mem_or_eq_of_mem_set he with he | rfl
  · exact hN.2 e he
  · exact hd

theorem numberOk_num (v : Nat) : NumberOk p (num p.W N.length v) := ⟨by simpa using hN.1, digitsOk_num _ _ v⟩

theorem numberOk_sum (B : Number) : NumberOk p (sum p.W N B).1 :=
  ⟨(length_sumFrom_le _ 0 N B).trans hN.1, digitsOk_sumFrom _ 0 N B⟩

theorem numberOk_subtract (B : Number) : NumberOk p (subtract p.W N B).1 :=
  ⟨(length_subtractFrom_le _ 0 N B).trans hN.1, digitsOk_subtractFrom _ 0 N B⟩

theorem numberOk_shiftRightBy (t : Nat) : NumberOk p (shiftRightBy p.W N t) :=
  ⟨by simpa using hN.1, digitsOk_shiftRightBy hN.2 t⟩

theorem numberOk_shiftLeftBy (t : Nat) : NumberOk p (shiftLeftBy p.W N t) :=
  ⟨by simpa using hN.1, digitsOk_shiftLeftBy hN.2 t⟩

theorem numberOk_bitShiftRight (t : Int) : NumberOk p (bitShiftRight p.W N t) := by
  unfold bitShiftRight
  split
  · exact numberOk_shiftLeftBy hN _
  · exact numberOk_shiftRightBy hN _

theorem numberOk_bitShiftLeft (t : Int) : NumberOk p (bitShiftLeft p.W N t) := by
  unfold bitShiftLeft
  split
  · exact numberOk_shiftRightBy hN _
  · exact numberOk_shiftLeftBy hN _

theorem numberOk_bitShiftRightFill (t : Int) {f : Nat} (hf : f < 2 ^ p.W) : NumberOk p (bitShiftRightFill p.W N t f) := by
  unfold bitShiftRightFill
  split
  · exact numberOk_shiftLeftBy hN _
  · exact ⟨by simpa using hN.1, digitsOk_shiftRightDigits hN.2 hf _⟩

theorem numberOk_complement : NumberOk p (N.map fun d => maxd p.W - d) := by
  refine ⟨by simpa using hN.1, fun e he => ?_⟩
  obtain ⟨d, -, rfl⟩ := List.mem_map.mp he
  have := Nat.two_pow_pos p.W
  unfold maxd
  omega

/-- A digit operator whose results are digits gives a number of the operands' length or less (R230). -/
theorem numberOk_digitwise {op : Nat → Nat → Nat} (hop : ∀ {a b : Nat}, a < 2 ^ p.W → b < 2 ^ p.W → op a b < 2 ^ p.W)
    {B : Number} (hB : NumberOk p B) : NumberOk p (digitwise op N B) := by
  refine ⟨by simpa [digitwise] using Or.inl hN.1, fun e he => ?_⟩
  obtain ⟨k, hk, rfl⟩ := List.getElem_of_mem he
  simp only [digitwise, List.getElem_zipWith]
  exact hop (hN.2 _ (List.getElem_mem _)) (hB.2 _ (List.getElem_mem _))

end

/-! ## The invariant along a step -/

theorem State.digitValue_lt (s : State) (r : XReg) : s.digitValue r < 2 ^ s.params.W := Nat.mod_lt _ (Nat.two_pow_pos _)

theorem inv_writeDout {s : State} (h : s.Inv) (w : Word64) : (s.writeDout w).Inv :=
  ⟨h.params, h.numbers, h.running, h.stopped⟩

/-- The invariant does not speak of what the host drives. -/
theorem inv_withInputs {s : State} (h : s.Inv) (os : List Offer) (ls : List Bool) :
    State.Inv { s with offers := os, rst := ls } :=
  ⟨h.params, h.numbers, h.running, h.stopped⟩

theorem inv_resetWith {p : Params} (hp : p.Valid) : (State.resetWith p).Inv where
  params := hp
  numbers r := by
    rw [State.readV_resetWith]
    exact ⟨Nat.zero_le _, digitsOk_nil _⟩
  running _ := ⟨rfl, rfl⟩
  stopped hf := Bool.noConfusion hf

/-- Every command keeps the invariant: it takes a fault, or each number it writes is one a register can hold. -/
theorem exec_faultsOr_inv {s : State} (hs : s.Inv) (i : Instr) : FaultsOr s State.Inv (exec i s) :=
  match i with
  | .xrd _ => .completed (inv_writeDout hs _)
  | .xld _ | .xli _ _ | .vlen _ _ | .eq _ _ _ | .lzc _ _ | .tzc _ _ | .bwid _ _ => .completed (inv_writeX hs _ _)
  | .vrd _ _ _ | .cmp _ _ _ => .check (by decide) fun _ => .completed (inv_writeX hs _ _)
  | .adds _ _ _ _ | .subs _ _ _ _ =>
    .check (by decide) fun _ => .check (by decide) fun _ => .check (by decide) fun _ =>
      .completed (inv_writeX (inv_writeX hs _ _) _ _)
  | .vzero vd _ =>
    .check (by decide) fun hcap => .completed (inv_writeV hs vd ⟨by simpa using hcap, digitsOk_zeros _ _⟩)
  | .vwr vd xs _ =>
    .check (by decide) fun _ => .check (by decide) fun _ =>
      .completed (inv_writeV hs vd (numberOk_set (hs.numbers vd) _ (s.digitValue_lt xs)))
  | .vmov vd vs => .completed (inv_writeV hs vd (hs.numbers vs))
  | .vpad vd vs _ =>
    .check (by decide) fun hlen => .check (by decide) fun hcap =>
      .completed (inv_writeV hs vd ⟨(length_padRight hlen).le.trans hcap, digitsOk_padRight (hs.numbers vs).2 _⟩)
  | .muls vd xa xb =>
    .check (by decide) fun _ => .check (by decide) fun _ =>
      .completed (inv_writeV hs vd ⟨hs.params.1, digitsOk_multiplyScalars (s.digitValue_lt xa) (s.digitValue_lt xb)⟩)
  | .add vd _ va vb =>
    .check (by decide) fun _ => .completed (inv_writeX (inv_writeV hs vd (numberOk_sum (hs.numbers va) (s.readV vb))) _ _)
  | .sub vd _ va vb =>
    .check (by decide) fun _ => .completed (inv_writeX (inv_writeV hs vd (numberOk_subtract (hs.numbers va) (s.readV vb))) _ _)
  | .mulsc vd xa vb =>
    .check (by decide) fun _ => .check (by decide) fun hcap =>
      .completed (inv_writeV hs vd ⟨(length_multiplyByScalarFrom _ _ 0 _).le.trans hcap,
        digitsOk_multiplyByScalarFrom (s.digitValue_lt xa) (hs.numbers vb).2 (Nat.two_pow_pos _)⟩)
  | .mul vd va vb =>
    have hmul := multiply_length_le_and_digitsOk s.params.W (s.readV va) (s.readV vb)
    .check (by decide) fun _ => .check (by decide) fun hcap =>
      .completed (inv_writeV hs vd ⟨hmul.1.trans hcap, hmul.2⟩)
  | .div vq vr va _ =>
    .check (by decide) fun _ => .check (by decide) fun _ => .check (by decide) fun _ =>
      .completed (inv_writeV (inv_writeV hs vq (numberOk_num (hs.numbers va) _)) vr (numberOk_num (hs.numbers va) _))
  | .shl vd vs _ => .completed (inv_writeV hs vd (numberOk_bitShiftLeft (hs.numbers vs) _))
  | .shr vd vs _ => .completed (inv_writeV hs vd (numberOk_bitShiftRight (hs.numbers vs) _))
  | .shrf vd vs _ xf =>
    .check (by decide) fun _ =>
      .completed (inv_writeV hs vd (numberOk_bitShiftRightFill (hs.numbers vs) _ (s.digitValue_lt xf)))
  | .and vd va vb =>
    .check (by decide) fun _ => .check (by decide) fun _ =>
      .completed (inv_writeV hs vd (numberOk_digitwise (hs.numbers va) (fun _ hb => Nat.and_lt_two_pow _ hb) (hs.numbers vb)))
  | .or vd va vb =>
    .check (by decide) fun _ => .check (by decide) fun _ =>
      .completed (inv_writeV hs vd (numberOk_digitwise (hs.numbers va) Nat.or_lt_two_pow (hs.numbers vb)))
  | .xor vd va vb =>
    .check (by decide) fun _ => .check (by decide) fun _ =>
      .completed (inv_writeV hs vd (numberOk_digitwise (hs.numbers va) Nat.xor_lt_two_pow (hs.numbers vb)))
  | .not vd va => .check (by decide) fun _ => .completed (inv_writeV hs vd (numberOk_complement (hs.numbers va)))

theorem FaultsOr.inv {s t : State} (hs : s.Inv) (h : FaultsOr s State.Inv (.next t)) : t.Inv := by
  cases h with
  | faulted hc => exact inv_takeFault hs hc
  | completed ht => exact ht

/-- Performing the command on the port, legal or not, keeps the invariant. -/
theorem perform_inv {s t : State} (hs : s.Inv) (h : s.perform = .next t) : t.Inv := by
  refine FaultsOr.inv hs ?_
  rw [← h]
  unfold State.perform
  split
  next => exact .faulted (by decide)
  next i _ => exact exec_faultsOr_inv hs i

/-- Settles O8: a reset register holds the empty number, and no fault is taken. -/
theorem resetMeetsTheInvariant : Obligations.ResetMeetsTheInvariant := by
  unfold Obligations.ResetMeetsTheInvariant
  exact ⟨fun _ => inv_resetWith, inv_resetWith (by decide)⟩

/-- Settles O9, by the cases of a step: reset gives a state of the invariant, a performed command keeps it, and a step that
accepts nothing changes the host's inputs only. -/
theorem stepKeepsTheInvariant : Obligations.StepKeepsTheInvariant := by
  unfold Obligations.StepKeepsTheInvariant
  intro s t hs h
  rcases step_cases h with ⟨-, rfl⟩ | ⟨-, -, -, u, hu, rfl⟩ | ⟨-, -, rfl⟩
  · exact inv_withInputs (inv_resetWith hs.params) _ _
  · exact inv_withInputs (perform_inv hs hu) _ _
  · exact inv_withInputs hs _ _

/-! ## The conditions of the faults a command's checks raise (spec/60_exceptions.md R300) -/

section
variable {i : Instr} {s : State}

theorem faultCondition_of_firstFault_none (h : firstFault i s = none) (c : FaultCode) : faultCondition c i s = false := by
  have hall := List.find?_eq_none.mp h
  cases c with
  | none => rfl
  | _ => simpa using hall _ (by decide)

theorem faultCondition_illegalCmd_of_dests (hi : i.distinctDests = false) : faultCondition .illegalCmd i s = true := by
  simp [faultCondition, Instr.wellFormed, hi]

theorem faultCondition_illegalCmd_of_logic (hi : i.needsLogic = true) (h : ¬ s.params.logicPresent = true) :
    faultCondition .illegalCmd i s = true := by
  simp [faultCondition, Instr.wellFormed, hi, h]

theorem faultCondition_digitRange {r : XReg} (hr : r ∈ digitOperands i) (h : ¬ s.digitOk r = true) :
    faultCondition .digitRange i s = true := by
  rw [State.digitOk_iff, Nat.not_lt] at h
  exact List.any_eq_true.mpr ⟨r, hr, decide_eq_true h⟩

theorem faultCondition_lenMismatch {a b : VReg} (hi : equalLengthOperands i = some (a, b))
    (h : ¬ (s.readV a).length = (s.readV b).length) : faultCondition .lenMismatch i s = true := by
  simp [faultCondition, hi, h]

theorem faultCondition_index {r : VReg} {k : Nat} (hi : indexOperand i = some (r, k)) (h : ¬ k < (s.readV r).length) :
    faultCondition .index i s = true := by
  simpa [faultCondition, hi] using h

theorem faultCondition_padLength {r : VReg} {m : Nat} (hi : padOperand i = some (r, m)) (h : ¬ (s.readV r).length ≤ m) :
    faultCondition .padLength i s = true := by
  simpa [faultCondition, hi] using h

theorem faultCondition_capacity {m : Nat} (hi : requestedLength i s = some m) (h : ¬ m ≤ s.params.cap) :
    faultCondition .capacity i s = true := by
  simpa [faultCondition, hi] using h

theorem faultCondition_divByZero {r : VReg} (hi : divisorOperand i = some r) (h : ¬ val s.params.W (s.readV r) ≠ 0) :
    faultCondition .divByZero i s = true := by
  rw [not_not, val_eq_zero_iff] at h
  simpa [faultCondition, hi] using h

end

/-! ## The port and the status fields (spec/10_state.md R28, R41) -/

/-- `s` with the offers and the status fields of `u`: the part of the state that only `XLD` reads, and only its `din`. -/
def State.withPortAndStatus (s u : State) : State :=
  { s with offers := u.offers, faulted := u.faulted, faultCode := u.faultCode, faultCmd := u.faultCmd }

/-- The answers of one command on `s` and on `s` with the port and the status of `u`: both runs take the same fault, whose
condition holds, or both complete, in states that differ as the ones before did. -/
inductive SameRun (i : Instr) (s u : State) : Result → Result → Prop where
  | faulted {c : FaultCode} (hc : faultCondition c i s = true) :
    SameRun i s u (.next (s.takeFault c)) (.next ((s.withPortAndStatus u).takeFault c))
  | completed {t : State} (ht : t.withPortAndStatus s = t) : SameRun i s u (.next t) (.next (t.withPortAndStatus u))

/-- A check that reads neither port nor status goes the same way in both runs. -/
theorem SameRun.check {i : Instr} {s u : State} {ok : Prop} [Decidable ok] {c : FaultCode} {k l : Result}
    (hc : ¬ ok → faultCondition c i s = true) (hk : ok → SameRun i s u k l) :
    SameRun i s u (require ok c s k) (require ok c (s.withPortAndStatus u) l) := by
  by_cases ho : ok
  · rw [require_true ho, require_true ho]
    exact hk ho
  · rw [require_false ho, require_false ho]
    exact .faulted (hc ho)

theorem SameRun.cases {i : Instr} {s u : State} {r l : Result} (h : SameRun i s u r l) :
    (∃ c, faultCondition c i s = true ∧ r = .next (s.takeFault c) ∧ l = .next ((s.withPortAndStatus u).takeFault c)) ∨
    (∃ t, t.withPortAndStatus s = t ∧ r = .next t ∧ l = .next (t.withPortAndStatus u)) := by
  cases h with
  | faulted hc => exact .inl ⟨_, hc, rfl, rfl⟩
  | completed ht => exact .inr ⟨_, ht, rfl, rfl⟩

/-- No command reads the status, and none but `XLD` reads the port (the word a fault records apart): two runs that differ there
alone go the same way. -/
theorem exec_sameRun (i : Instr) (s u : State) (hdin : ∀ xd, i = .xld xd → u.din = s.din) :
    SameRun i s u (exec i s) (exec i (s.withPortAndStatus u)) :=
  match i with
  | .xld xd => by
    have h : exec (.xld xd) (s.withPortAndStatus u) = .next ((s.writeX xd s.din).withPortAndStatus u) := by
      rw [← hdin xd rfl]
      rfl
    rw [h]
    exact .completed rfl
  | .xli _ _ | .xrd _ | .vlen _ _ | .vmov _ _ | .eq _ _ _ | .shl _ _ _ | .shr _ _ _ | .lzc _ _ | .tzc _ _ | .bwid _ _ =>
    .completed rfl
  | .vzero _ _ => .check (faultCondition_capacity rfl) fun _ => .completed rfl
  | .vwr _ _ _ =>
    .check (faultCondition_digitRange (by simp [digitOperands])) fun _ =>
      .check (faultCondition_index rfl) fun _ => .completed rfl
  | .vrd _ _ _ => .check (faultCondition_index rfl) fun _ => .completed rfl
  | .vpad _ _ _ =>
    .check (faultCondition_padLength rfl) fun _ => .check (faultCondition_capacity rfl) fun _ => .completed rfl
  | .adds d e _ _ | .subs d e _ _ =>
    .check (fun h => faultCondition_illegalCmd_of_dests (by simpa [Instr.distinctDests] using h)) fun _ =>
      .check (faultCondition_digitRange (by simp [digitOperands])) fun _ =>
        .check (faultCondition_digitRange (by simp [digitOperands])) fun _ => .completed rfl
  | .muls _ _ _ =>
    .check (faultCondition_digitRange (by simp [digitOperands])) fun _ =>
      .check (faultCondition_digitRange (by simp [digitOperands])) fun _ => .completed rfl
  | .cmp _ _ _ | .add _ _ _ _ | .sub _ _ _ _ => .check (faultCondition_lenMismatch rfl) fun _ => .completed rfl
  | .mulsc _ _ _ =>
    .check (faultCondition_digitRange (by simp [digitOperands])) fun _ =>
      .check (faultCondition_capacity rfl) fun _ => .completed rfl
  | .mul _ _ _ =>
    .check (faultCondition_lenMismatch rfl) fun _ => .check (faultCondition_capacity rfl) fun _ => .completed rfl
  | .div q r _ _ =>
    .check (fun h => faultCondition_illegalCmd_of_dests (by simpa [Instr.distinctDests] using h)) fun _ =>
      .check (faultCondition_lenMismatch rfl) fun _ => .check (faultCondition_divByZero rfl) fun _ => .completed rfl
  | .shrf _ _ _ _ => .check (faultCondition_digitRange (by simp [digitOperands])) fun _ => .completed rfl
  | .and _ _ _ | .or _ _ _ | .xor _ _ _ =>
    .check (faultCondition_illegalCmd_of_logic rfl) fun _ => .check (faultCondition_lenMismatch rfl) fun _ => .completed rfl
  | .not _ _ => .check (faultCondition_illegalCmd_of_logic rfl) fun _ => .completed rfl

/-- With no fault to report a command completes, on `s` and on `s` with another port and status alike, and keeps both. -/
theorem exec_completes {i : Instr} {s : State} (h : firstFault i s = none) (u : State)
    (hdin : ∀ xd, i = .xld xd → u.din = s.din) :
    ∃ t, t.withPortAndStatus s = t ∧ exec i s = .next t ∧
      exec i (s.withPortAndStatus u) = .next (t.withPortAndStatus u) := by
  rcases (exec_sameRun i s u hdin).cases with ⟨c, hc, -, -⟩ | hcompleted
  · simp [faultCondition_of_firstFault_none h c] at hc
  · exact hcompleted

/-- A command with no fault to report ends in a state that differs in its destinations only. -/
theorem exec_writesOnlyDests {i : Instr} {s : State} (h : firstFault i s = none) :
    ∃ t, exec i s = .next t ∧ WritesOnlyDests i s t := by
  obtain ⟨t, hkeep, ht, -⟩ := exec_completes h s fun _ _ => rfl
  have hw := exec_faultsOr_writesOnlyDests i s
  rw [ht] at hw
  refine ⟨t, ht, ?_⟩
  cases hw with
  | faulted =>
    rw [← hkeep]
    exact .of_frame ⟨fun _ _ => rfl, fun _ _ => rfl, rfl, rfl, rfl, rfl, rfl, rfl, rfl⟩
  | completed hw => exact hw

/-- Settles O20, by the frame of a command that reports no fault. -/
theorem commandsWriteOnlyTheirDestinations : Obligations.CommandsWriteOnlyTheirDestinations := by
  unfold Obligations.CommandsWriteOnlyTheirDestinations
  intro i s h
  obtain ⟨t, ht, ⟨hframe, hdout⟩⟩ := exec_writesOnlyDests h
  exact ⟨t, ht, hframe.numbers, hframe.scalars, hdout, hframe.faulted, hframe.faultCode, hframe.faultCmd, hframe.params,
    hframe.offers, hframe.rst⟩

/-- Settles O22: the run on another status is the run on `s` with that status put in. -/
theorem noCommandReadsTheStatus : Obligations.NoCommandReadsTheStatus := by
  unfold Obligations.NoCommandReadsTheStatus
  intro i s t f c m h ht
  obtain ⟨t', hkeep, ht', hrun⟩ :=
    exec_completes h { s with faulted := f, faultCode := c, faultCmd := m } fun _ _ => rfl
  cases ht.symm.trans ht'
  rw [← hkeep]
  exact hrun

/-- Settles O23: the run on another `din` is the run on `s` with that offer put in, and a fault keeps the command word. -/
theorem dinIsReadOnlyByXld : Obligations.DinIsReadOnlyByXld := by
  unfold Obligations.DinIsReadOnlyByXld
  intro i s t w d e how rest hi hs ht
  rcases (exec_sameRun i s { s with offers := .command w e how :: rest } fun xd hxd => absurd hxd (hi xd)).cases with
    ⟨c, -, hfault, hrun⟩ | ⟨t', hkeep, ht', hrun⟩
  · cases ht.symm.trans hfault
    refine hrun.trans ?_
    simp [State.takeFault, State.withPortAndStatus, State.cmd, hs]
  · cases ht.symm.trans ht'
    rw [← hkeep]
    exact hrun

/-! ## DOUT (spec/10_state.md R27) and the accepted command (R41, R350) -/

theorem exec_xrd (xs : XReg) (s : State) : exec (.xrd xs) s = .next (s.writeDout (s.readX xs)) := rfl

theorem perform_of_decode {s : State} {i : Instr} (hi : decode s.params.logicPresent s.cmd = .ok i) :
    s.perform = exec i s := by
  simp [State.perform, hi]

theorem exec_dout {i : Instr} {s t : State} (hi : ∀ xs, i ≠ .xrd xs) (h : exec i s = .next t) : t.dout = s.dout := by
  have hw := exec_faultsOr_writesOnlyDests i s
  rw [h] at hw
  cases hw with
  | faulted => rfl
  | completed hw => exact hw.dout hi

/-- A performed command after which `DOUT` differs is an `XRD`. -/
theorem perform_dout_ne {s t : State} (h : s.perform = .next t) (hd : t.dout ≠ s.dout) :
    ∃ xs, decode s.params.logicPresent s.cmd = .ok (.xrd xs) ∧ t.dout = s.readX xs := by
  have hp := perform_faultsOr_writesOnlyDests s
  rw [h] at hp
  cases hp with
  | faulted => exact absurd rfl hd
  | completed hw =>
    obtain ⟨i, hi, hw⟩ := hw
    obtain ⟨xs, rfl⟩ : ∃ xs, i = .xrd xs := by
      by_contra hne
      exact hd (hw.dout (not_exists.mp hne))
    rw [perform_of_decode hi, exec_xrd] at h
    cases h
    exact ⟨xs, hi, rfl⟩

/-- Settles O21, by the frame of every command, faulting or not, and the cases of a step. -/
theorem onlyXrdWritesDout : Obligations.OnlyXrdWritesDout := by
  unfold Obligations.OnlyXrdWritesDout
  refine fun s => ⟨rfl, fun _ _ => exec_dout, fun xs => exec_xrd xs s, fun t h hr hd => ?_⟩
  rcases step_cases h with ⟨hr', -⟩ | ⟨-, -, -, u, hu, rfl⟩ | ⟨-, -, rfl⟩
  · rw [hr] at hr'
    cases hr'
  · simpa using perform_dout_ne hu hd
  · exact absurd rfl hd

/-- A core that is ready takes the command on the port. -/
theorem step_of_cmdReady {s : State} (hv : s.cmdValid = true) (hr : s.cmdReady = true) :
    step s = mapNext (fun t => t.dropOffer.tick) s.perform := by
  have hc : ¬ s.offerChanges = true := by
    rw [State.offerChanges_iff]
    simp [hr]
  have hl : ¬ s.rstLevel = true := by
    simp only [State.cmdReady, Bool.and_eq_true, Bool.not_eq_true'] at hr
    simp [hr.1]
  rw [step, if_neg hc, if_neg hl, hv, hr]
  rfl

/-- Settles O11: the core is ready, takes the command on the port, and performs what its word decodes to. -/
theorem stepPerformsTheOfferedCommand : Obligations.StepPerformsTheOfferedCommand := by
  unfold Obligations.StepPerformsTheOfferedCommand
  intro s w din how rest i hs hr hf hd
  have hv : s.cmdValid = true := by simp [State.cmdValid, hs]
  have hready : s.cmdReady = true := by simp [State.cmdReady, hr, hf]
  have hw : s.cmd = w := by simp [State.cmd, hs]
  refine ⟨hv, hready, hw, by simp [State.din, hs], ?_⟩
  rw [step_of_cmdReady hv hready, perform_of_decode (hw.symm ▸ hd)]
  rfl

/-! ## Reset values (R36 to R39) and the layout of `stat` (R28, R43) -/

/-- Appended bit fields add at their places. -/
theorem toNat_append_eq_add {m n : Nat} (x : BitVec m) (y : BitVec n) : (x ++ y).toNat = x.toNat * 2 ^ n + y.toNat := by
  rw [BitVec.toNat_append, ← Nat.shiftLeft_add_eq_or_of_lt y.isLt, Nat.shiftLeft_eq]

theorem FaultCode.code_le (c : FaultCode) : c.code.toNat ≤ 7 := by
  cases c <;> decide

theorem State.stat_toNat (s : State) :
    s.stat.toNat = s.faultCmd.toNat * 2 ^ 32 + s.faultCode.code.toNat * 2 ^ 8 + s.faulted.toNat := by
  simp only [State.stat, toNat_append_eq_add, BitVec.toNat_ofBool, BitVec.toNat_ofNat]
  omega

/-- Settles O17, by the places of the appended fields and the codes of R300. -/
theorem statLayout : Obligations.StatLayout := by
  unfold Obligations.StatLayout
  exact fun s => ⟨s.stat_toNat, s.faultCode.code_le⟩

/-- Settles O7: each field of the reset state at the value the spec gives it, and `stat` by its layout. -/
theorem resetLeavesTheSpecValues : Obligations.ResetLeavesTheSpecValues := by
  unfold Obligations.ResetLeavesTheSpecValues
  intro p
  have hstat : (State.resetWith p).stat = 0 := by
    apply BitVec.eq_of_toNat_eq
    simp [State.stat_toNat, State.resetWith, FaultCode.code]
  exact ⟨fun r => by simp, State.readX_resetWith p, rfl, rfl, rfl, rfl, hstat⟩

end Sys2Proof.Machine

namespace Sys2Proof.Machine

/-! ## The opcode map and the decoder (spec/30_encoding.md R78, R82) -/

/-- No two rows of the map share an opcode. -/
theorem opRow_code_of_mem : ∀ r ∈ opcodeMap, opRow r.code = some r := by decide

theorem opRow_eq_some_iff {code : Byte} {r : OpRow} : opRow code = some r ↔ r ∈ opcodeMap ∧ r.code = code := by
  refine ⟨fun h => ⟨List.mem_of_find?_eq_some h, by simpa using List.find?_some h⟩, ?_⟩
  rintro ⟨hr, rfl⟩
  exact opRow_code_of_mem r hr

/-- R77, field by field: what the row does not use is 0. -/
theorem unusedFieldsZero_iff {r : OpRow} {w : Word32} :
    unusedFieldsZero r w = true ↔ (r.rd = false → cmdRd w = 0) ∧ (r.rs1 = false → cmdRs1 w = 0) ∧
      (r.fmt = .R → r.rs2 = false → cmdRs2 w = 0) ∧ (r.fmt = .R → r.re = false → cmdRe w = 0) := by
  cases hf : r.fmt <;> simp [unusedFieldsZero, hf, and_assoc, or_iff_not_imp_left]

/-- What R82 asks of a word whose opcode selects the row `r`. -/
structure LegalAs (logic : Bool) (r : OpRow) (w : Word32) : Prop where
  logic : r.op ∈ logicOps → logic = true
  z : r.fmt = .R → cmdZ w = 0
  unused : unusedFieldsZero r w = true
  dests : r.op ∈ twoDestOps → cmdRd w ≠ cmdRe w

theorem decode_of_opRow_none {w : Word32} (h : opRow (cmdOpcode w) = none) (logic : Bool) :
    decode logic w = .error .unknownOpcode := by
  simp [decode, h]

theorem decode_of_legalAs {logic : Bool} {r : OpRow} {w : Word32} (hr : opRow (cmdOpcode w) = some r)
    (h : LegalAs logic r w) :
    decode logic w = .ok (buildInstr r.op (cmdRd w) (cmdRs1 w) (cmdRs2 w) (cmdRe w) (cmdImm w)) := by
  have hlogic : ¬ (logicOps.contains r.op && !logic) = true := by simpa using h.logic
  have hz : ¬ (r.fmt == .R && cmdZ w != 0) = true := by simpa using h.z
  have hunused : ¬ (!unusedFieldsZero r w) = true := by simpa using h.unused
  have hdests : ¬ (twoDestOps.contains r.op && cmdRd w == cmdRe w) = true := by simpa using h.dests
  rw [decode, hr]
  exact (if_neg hlogic).trans ((if_neg hz).trans ((if_neg hunused).trans (if_neg hdests)))

theorem legalAs_of_decode {logic : Bool} {r : OpRow} {w : Word32} {i : Instr} (hr : opRow (cmdOpcode w) = some r)
    (h : decode logic w = .ok i) : LegalAs logic r w := by
  rw [decode, hr] at h
  simp only at h
  split at h
  · cases h
  split at h
  · cases h
  split at h
  · cases h
  split at h
  · cases h
  next hlogic hz hunused hdests =>
    exact ⟨by simpa using hlogic, by simpa using hz, by simpa using hunused, by simpa using hdests⟩

/-- A word decodes exactly when its opcode selects a row and it is legal as a word of that row. -/
theorem decode_eq_ok_iff {logic : Bool} {w : Word32} {i : Instr} :
    decode logic w = .ok i ↔ ∃ r, opRow (cmdOpcode w) = some r ∧ LegalAs logic r w ∧
      i = buildInstr r.op (cmdRd w) (cmdRs1 w) (cmdRs2 w) (cmdRe w) (cmdImm w) := by
  cases hr : opRow (cmdOpcode w) with
  | none => simp [decode_of_opRow_none hr]
  | some r =>
    constructor
    · intro h
      have hl := legalAs_of_decode hr h
      rw [decode_of_legalAs hr hl] at h
      exact ⟨r, rfl, hl, (Except.ok.inj h).symm⟩
    · rintro ⟨r', hr', hl, rfl⟩
      cases hr'
      exact decode_of_legalAs hr hl

/-! ## The word of a command (R72, R73, R77, R78) -/

theorem wellFormed_iff {logic : Bool} {i : Instr} :
    i.wellFormed logic = true ↔ i.distinctDests = true ∧ (i.needsLogic = true → logic = true) := by
  cases logic <;> simp [Instr.wellFormed]

/-- The laws of the commands' words, as one. -/
theorem encodedFields (i : Instr) : Laws.EncodedFields.Statement i :=
  match i with
  | .xld .. => Laws.EncodedFields.xld ..
  | .xli .. => Laws.EncodedFields.xli ..
  | .xrd .. => Laws.EncodedFields.xrd ..
  | .vzero .. => Laws.EncodedFields.vzero ..
  | .vwr .. => Laws.EncodedFields.vwr ..
  | .vrd .. => Laws.EncodedFields.vrd ..
  | .vlen .. => Laws.EncodedFields.vlen ..
  | .vmov .. => Laws.EncodedFields.vmov ..
  | .vpad .. => Laws.EncodedFields.vpad ..
  | .adds .. => Laws.EncodedFields.adds ..
  | .subs .. => Laws.EncodedFields.subs ..
  | .muls .. => Laws.EncodedFields.muls ..
  | .cmp .. => Laws.EncodedFields.cmp ..
  | .eq .. => Laws.EncodedFields.eq ..
  | .add .. => Laws.EncodedFields.add ..
  | .sub .. => Laws.EncodedFields.sub ..
  | .mulsc .. => Laws.EncodedFields.mulsc ..
  | .mul .. => Laws.EncodedFields.mul ..
  | .div .. => Laws.EncodedFields.div ..
  | .shl .. => Laws.EncodedFields.shl ..
  | .shr .. => Laws.EncodedFields.shr ..
  | .shrf .. => Laws.EncodedFields.shrf ..
  | .lzc .. => Laws.EncodedFields.lzc ..
  | .tzc .. => Laws.EncodedFields.tzc ..
  | .bwid .. => Laws.EncodedFields.bwid ..
  | .and .. => Laws.EncodedFields.and ..
  | .or .. => Laws.EncodedFields.or ..
  | .xor .. => Laws.EncodedFields.xor ..
  | .not .. => Laws.EncodedFields.not ..

theorem asmParts_mem_logicOps_iff (i : Instr) : (asmParts i).1 ∈ logicOps ↔ i.needsLogic = true := by
  cases i <;> simp [asmParts, logicOps, Instr.needsLogic]

theorem distinctDests_iff (i : Instr) :
    i.distinctDests = true ↔ ((asmParts i).1 ∈ twoDestOps → cmdRd (encode i) ≠ cmdRe (encode i)) := by
  cases i <;> simp [asmParts, twoDestOps, Instr.distinctDests, encode]

theorem buildInstr_encode (i : Instr) :
    buildInstr (asmParts i).1 (cmdRd (encode i)) (cmdRs1 (encode i)) (cmdRs2 (encode i)) (cmdRe (encode i))
      (cmdImm (encode i)) = i := by
  cases i <;> simp [asmParts, buildInstr, encode]

/-- Settles O3: the word has the opcode of the command's row and is legal as a word of it, and its fields give the command's
operands back. -/
theorem decodeOfEncode : Obligations.DecodeOfEncode := by
  unfold Obligations.DecodeOfEncode
  intro logic i hi
  obtain ⟨hdests, hlogic⟩ := wellFormed_iff.mp hi
  obtain ⟨r, hr, hop, hcode, hz, hunused⟩ := encodedFields i
  refine decode_eq_ok_iff.mpr ⟨r, opRow_eq_some_iff.mpr ⟨hr, hcode.symm⟩, ⟨?_, hz, hunused, ?_⟩, ?_⟩
  · rw [hop, asmParts_mem_logicOps_iff]
    exact hlogic
  · rw [hop, ← distinctDests_iff]
    exact hdests
  · rw [hop, buildInstr_encode]

/-! ## A word from its fields (R71, R72, R73) -/

theorem formatR_fields {w : Word32} (hz : cmdZ w = 0) :
    formatR (cmdOpcode w) (cmdRd w) (cmdRs1 w) (cmdRs2 w) (cmdRe w) = w := by
  have hz' : (cmdZ w).toNat = 0 := congrArg BitVec.toNat hz
  apply BitVec.eq_of_toNat_eq
  rw [formatR_toNat]
  simp only [cmdZ, cmdOpcode, cmdRd, cmdRs1, cmdRs2, cmdRe, BitVec.val_toFin, BitVec.extractLsb'_toNat,
    Nat.shiftRight_eq_div_pow] at hz' ⊢
  omega

theorem formatI_fields (w : Word32) : formatI (cmdOpcode w) (cmdRd w) (cmdRs1 w) (cmdImm w) = w := by
  apply BitVec.eq_of_toNat_eq
  rw [formatI_toNat]
  simp only [cmdOpcode, cmdRd, cmdRs1, cmdImm, BitVec.val_toFin, BitVec.extractLsb'_toNat, Nat.shiftRight_eq_div_pow]
  omega

/-- A register field as the encoder writes it: 0 where the command does not use it (R77). -/
def fieldIf (used : Bool) (f : Fin 16) : Fin 16 := if used then f else 0

theorem fieldIf_eq_self {used : Bool} {f : Fin 16} (h : used = false → f = 0) : fieldIf used f = f := by
  cases used with
  | true => rfl
  | false => exact (h rfl).symm

/-- The word of row `r` with these operands in the fields it uses. -/
def rowWord (r : OpRow) (rd rs1 rs2 re : Fin 16) (imm : Imm16) : Word32 :=
  match r.fmt with
  | .R => formatR r.code (fieldIf r.rd rd) (fieldIf r.rs1 rs1) (fieldIf r.rs2 rs2) (fieldIf r.re re)
  | .I => formatI r.code (fieldIf r.rd rd) (fieldIf r.rs1 rs1) imm

theorem encode_buildInstr {r : OpRow} (hr : r ∈ opcodeMap) (rd rs1 rs2 re : Fin 16) (imm : Imm16) :
    encode (buildInstr r.op rd rs1 rs2 re imm) = rowWord r rd rs1 rs2 re imm := by
  fin_cases hr <;> rfl

theorem rowWord_fields {logic : Bool} {r : OpRow} {w : Word32} (hc : r.code = cmdOpcode w) (h : LegalAs logic r w) :
    rowWord r (cmdRd w) (cmdRs1 w) (cmdRs2 w) (cmdRe w) (cmdImm w) = w := by
  obtain ⟨hrd, hrs1, hrs2, hre⟩ := unusedFieldsZero_iff.mp h.unused
  rw [rowWord, fieldIf_eq_self hrd, fieldIf_eq_self hrs1, hc]
  cases hf : r.fmt with
  | I => exact formatI_fields w
  | R =>
    rw [fieldIf_eq_self (hrs2 hf), fieldIf_eq_self (hre hf)]
    exact formatR_fields (h.z hf)

theorem asmParts_buildInstr (op : Op) (rd rs1 rs2 re : Fin 16) (imm : Imm16) :
    (asmParts (buildInstr op rd rs1 rs2 re imm)).1 = op := by
  cases op <;> rfl

/-- Settles O4: the word of the command read from a legal word has that word's fields, so it is that word. -/
theorem legalWordsEncodeBack : Obligations.LegalWordsEncodeBack := by
  unfold Obligations.LegalWordsEncodeBack
  intro logic w i h
  obtain ⟨r, hr, hlegal, rfl⟩ := decode_eq_ok_iff.mp h
  obtain ⟨hmem, hcode⟩ := opRow_eq_some_iff.mp hr
  have hword := (encode_buildInstr hmem (cmdRd w) (cmdRs1 w) (cmdRs2 w) (cmdRe w) (cmdImm w)).trans
    (rowWord_fields hcode hlegal)
  refine ⟨hword, wellFormed_iff.mpr ⟨?_, ?_⟩⟩
  · rw [distinctDests_iff, hword, asmParts_buildInstr]
    exact hlegal.dests
  · rw [← asmParts_mem_logicOps_iff, asmParts_buildInstr]
    exact hlegal.logic

/-! ## Fields as the spec numbers bits (R71) -/

theorem bitsOf_eq_extractLsb' (w : Word32) (hi lo : Nat) : bitsOf w hi lo = (w.extractLsb' lo (hi + 1 - lo)).toNat := by
  rw [bitsOf, BitVec.extractLsb'_toNat, Nat.shiftRight_eq_div_pow]

theorem bitsOf_opcode (w : Word32) : bitsOf w 7 0 = (cmdOpcode w).toNat := bitsOf_eq_extractLsb' w 7 0

theorem formatRFields_iff {w : Word32} {op rd rs1 rs2 re : Nat} :
    FormatRFields w op rd rs1 rs2 re ↔ (cmdOpcode w).toNat = op ∧ (cmdRd w).val = rd ∧ (cmdRs1 w).val = rs1 ∧
      (cmdRs2 w).val = rs2 ∧ (cmdRe w).val = re ∧ (cmdZ w).toNat = 0 := by
  simp only [FormatRFields, bitsOf_eq_extractLsb']
  rfl

theorem formatIFields_iff {w : Word32} {op rd rs1 imm : Nat} :
    FormatIFields w op rd rs1 imm ↔ (cmdOpcode w).toNat = op ∧ (cmdRd w).val = rd ∧ (cmdRs1 w).val = rs1 ∧
      (cmdImm w).toNat = imm := by
  simp only [FormatIFields, bitsOf_eq_extractLsb']
  rfl

/-- A word of format R with the fields of a command's word is that word. -/
theorem eq_formatR_of_fields {w : Word32} {code : Byte} {rd rs1 rs2 re : Fin 16}
    (h : FormatRFields w code.toNat rd rs1 rs2 re) : w = formatR code rd rs1 rs2 re := by
  obtain ⟨hop, hrd, hrs1, hrs2, hre, hz⟩ := formatRFields_iff.mp h
  rw [← BitVec.eq_of_toNat_eq hop, ← Fin.ext hrd, ← Fin.ext hrs1, ← Fin.ext hrs2, ← Fin.ext hre]
  exact (formatR_fields (BitVec.eq_of_toNat_eq hz)).symm

theorem eq_formatI_of_fields {w : Word32} {code : Byte} {rd rs1 : Fin 16} {imm : Imm16}
    (h : FormatIFields w code.toNat rd rs1 imm.toNat) : w = formatI code rd rs1 imm := by
  obtain ⟨hop, hrd, hrs1, himm⟩ := formatIFields_iff.mp h
  rw [← BitVec.eq_of_toNat_eq hop, ← Fin.ext hrd, ← Fin.ext hrs1, ← BitVec.eq_of_toNat_eq himm]
  exact (formatI_fields w).symm

theorem decode_of_eq_encode {logic : Bool} {w : Word32} {i : Instr} (hw : w = encode i) (hd : i.distinctDests = true)
    (hl : i.needsLogic = true → logic = true) : decode logic w = .ok i := by
  rw [hw]
  exact decodeOfEncode logic i (wellFormed_iff.mpr ⟨hd, hl⟩)

theorem decode_of_bitsOf_zero {w : Word32} (h : bitsOf w 7 0 = 0) (logic : Bool) :
    decode logic w = .error .unknownOpcode := by
  have hop : cmdOpcode w = 0 := BitVec.eq_of_toNat_eq ((bitsOf_opcode w).symm.trans h)
  apply decode_of_opRow_none
  rw [hop]
  rfl

/-- Settles O2: a word with the fields R78 gives a command is the word the encoder gives it, which `decodeOfEncode` decodes to
it; opcode 0 selects no row. -/
theorem opcodeMapDecodes : Obligations.OpcodeMapDecodes := by
  unfold Obligations.OpcodeMapDecodes
  intro logic w a b c d imm
  exact ⟨fun h => ⟨_, decode_of_bitsOf_zero h logic⟩,
    fun h => decode_of_eq_encode (eq_formatR_of_fields h) rfl nofun,
    fun h => decode_of_eq_encode (eq_formatI_of_fields h) rfl nofun,
    fun h => decode_of_eq_encode (eq_formatR_of_fields h) rfl nofun,
    fun h => decode_of_eq_encode (eq_formatI_of_fields h) rfl nofun,
    fun h => decode_of_eq_encode (eq_formatI_of_fields h) rfl nofun,
    fun h => decode_of_eq_encode (eq_formatI_of_fields h) rfl nofun,
    fun h => decode_of_eq_encode (eq_formatR_of_fields h) rfl nofun,
    fun h => decode_of_eq_encode (eq_formatR_of_fields h) rfl nofun,
    fun h => decode_of_eq_encode (eq_formatI_of_fields h) rfl nofun,
    fun h hne => decode_of_eq_encode (eq_formatR_of_fields h) (decide_eq_true hne) nofun,
    fun h hne => decode_of_eq_encode (eq_formatR_of_fields h) (decide_eq_true hne) nofun,
    fun h => decode_of_eq_encode (eq_formatR_of_fields h) rfl nofun,
    fun h => decode_of_eq_encode (eq_formatR_of_fields h) rfl nofun,
    fun h => decode_of_eq_encode (eq_formatR_of_fields h) rfl nofun,
    fun h => decode_of_eq_encode (eq_formatR_of_fields h) rfl nofun,
    fun h => decode_of_eq_encode (eq_formatR_of_fields h) rfl nofun,
    fun h => decode_of_eq_encode (eq_formatR_of_fields h) rfl nofun,
    fun h => decode_of_eq_encode (eq_formatR_of_fields h) rfl nofun,
    fun h hne => decode_of_eq_encode (eq_formatR_of_fields h) (decide_eq_true hne) nofun,
    fun h => decode_of_eq_encode (eq_formatR_of_fields h) rfl nofun,
    fun h => decode_of_eq_encode (eq_formatR_of_fields h) rfl nofun,
    fun h => decode_of_eq_encode (eq_formatR_of_fields h) rfl nofun,
    fun h => decode_of_eq_encode (eq_formatR_of_fields h) rfl nofun,
    fun h => decode_of_eq_encode (eq_formatR_of_fields h) rfl nofun,
    fun h => decode_of_eq_encode (eq_formatR_of_fields h) rfl nofun,
    fun h => decode_of_eq_encode (eq_formatR_of_fields h) rfl fun _ => rfl,
    fun h => decode_of_eq_encode (eq_formatR_of_fields h) rfl fun _ => rfl,
    fun h => decode_of_eq_encode (eq_formatR_of_fields h) rfl fun _ => rfl,
    fun h => decode_of_eq_encode (eq_formatR_of_fields h) rfl fun _ => rfl⟩

/-- Settles O1: each word is the one the encoder gives the command. -/
theorem exampleWordsDecode : Obligations.ExampleWordsDecode := by
  unfold Obligations.ExampleWordsDecode
  exact ⟨decode_of_eq_encode rfl rfl nofun, decode_of_eq_encode rfl rfl nofun, decode_of_eq_encode rfl rfl nofun,
    decode_of_eq_encode rfl rfl nofun, decode_of_eq_encode rfl rfl nofun, decode_of_eq_encode rfl rfl nofun,
    decode_of_eq_encode rfl rfl nofun, decode_of_eq_encode rfl rfl fun _ => rfl⟩

/-! ## Illegal words (R80) -/

/-- The opcode lists of R80 against the row an opcode selects. -/
structure OnLists (r : OpRow) : Prop where
  known : r.code.toNat ∈ knownOpcodes
  formatI : r.code.toNat ∈ formatIOpcodes ↔ r.fmt = .I
  rd : r.code.toNat ∈ rdUnused ↔ r.rd = false
  rs1 : r.code.toNat ∈ rs1Unused ↔ r.rs1 = false
  rs2 : r.code.toNat ∈ rs2Unused ↔ r.fmt = .R ∧ r.rs2 = false
  re : r.code.toNat ∈ reUnused ↔ r.fmt = .R ∧ r.re = false
  dests : r.code.toNat ∈ [0x10, 0x11, 0x30] ↔ r.op ∈ twoDestOps
  logic : r.code.toNat ∈ [0x40, 0x41, 0x42, 0x43] ↔ r.op ∈ logicOps

theorem onLists_of_mem {r : OpRow} (hr : r ∈ opcodeMap) : OnLists r := by
  fin_cases hr <;> constructor <;> decide

theorem knownOpcodes_eq : knownOpcodes = opcodeMap.map (·.code.toNat) := by decide

theorem exists_opRow_of_mem_knownOpcodes {w : Word32} (h : bitsOf w 7 0 ∈ knownOpcodes) :
    ∃ r, opRow (cmdOpcode w) = some r := by
  rw [knownOpcodes_eq, bitsOf_opcode] at h
  obtain ⟨r, hr, hcode⟩ := List.mem_map.mp h
  exact ⟨r, opRow_eq_some_iff.mpr ⟨hr, BitVec.eq_of_toNat_eq hcode⟩⟩

theorem bitsOf_opcode_of_opRow {w : Word32} {r : OpRow} (hr : opRow (cmdOpcode w) = some r) :
    bitsOf w 7 0 = r.code.toNat := by
  rw [(opRow_eq_some_iff.mp hr).2, bitsOf_opcode]

theorem bitsOf_eq_zero_iff {w : Word32} {hi lo : Nat} : bitsOf w hi lo = 0 ↔ w.extractLsb' lo (hi + 1 - lo) = 0 := by
  rw [bitsOf_eq_extractLsb', ← BitVec.toNat_inj]
  simp

theorem legalAs_iff_not_illegalWord {logic : Bool} {w : Word32} {r : OpRow} (hr : opRow (cmdOpcode w) = some r) :
    LegalAs logic r w ↔ ¬ IllegalWord logic w := by
  have hl := onLists_of_mem (opRow_eq_some_iff.mp hr).1
  have hz : bitsOf w 31 24 = 0 ↔ cmdZ w = 0 := bitsOf_eq_zero_iff
  have hrd : bitsOf w 11 8 = 0 ↔ cmdRd w = 0 := bitsOf_eq_zero_iff.trans BitVec.toFin_inj.symm
  have hrs1 : bitsOf w 15 12 = 0 ↔ cmdRs1 w = 0 := bitsOf_eq_zero_iff.trans BitVec.toFin_inj.symm
  have hrs2 : bitsOf w 19 16 = 0 ↔ cmdRs2 w = 0 := bitsOf_eq_zero_iff.trans BitVec.toFin_inj.symm
  have hre : bitsOf w 23 20 = 0 ↔ cmdRe w = 0 := bitsOf_eq_zero_iff.trans BitVec.toFin_inj.symm
  have hde : bitsOf w 11 8 = bitsOf w 23 20 ↔ cmdRd w = cmdRe w := by
    rw [bitsOf_eq_extractLsb', bitsOf_eq_extractLsb']
    exact BitVec.toNat_eq.symm.trans BitVec.toFin_inj.symm
  have hR : ¬ r.fmt = .I ↔ r.fmt = .R := by cases r.fmt <;> decide
  simp only [IllegalWord, bitsOf_opcode_of_opRow hr, hl.formatI, hl.rd, hl.rs1, hl.rs2, hl.re, hl.dests, hl.logic, ne_eq, hz,
    hrd, hrs1, hrs2, hre, hde, hR, hl.known, not_or, not_and, not_not, and_imp, Bool.not_eq_false, true_and]
  constructor
  · rintro ⟨hlogic, hz, hunused, hdests⟩
    obtain ⟨hrd, hrs1, hrs2, hre⟩ := unusedFieldsZero_iff.mp hunused
    exact ⟨hz, hrd, hrs1, hrs2, hre, hdests, hlogic⟩
  · rintro ⟨hz, hrd, hrs1, hrs2, hre, hdests, hlogic⟩
    exact ⟨hlogic, hz, unusedFieldsZero_iff.mpr ⟨hrd, hrs1, hrs2, hre⟩, hdests⟩

theorem illegalWord_iff_decode_error {logic : Bool} {w : Word32} :
    IllegalWord logic w ↔ ∃ e, decode logic w = .error e := by
  cases hr : opRow (cmdOpcode w) with
  | none =>
    refine iff_of_true (.inl fun hmem => ?_) ⟨_, decode_of_opRow_none hr logic⟩
    obtain ⟨r, hr'⟩ := exists_opRow_of_mem_knownOpcodes hmem
    rw [hr] at hr'
    cases hr'
  | some r =>
    rw [← not_iff_not, ← legalAs_iff_not_illegalWord hr]
    constructor
    · rintro h ⟨e, he⟩
      rw [decode_of_legalAs hr h] at he
      cases he
    · intro h
      cases hd : decode logic w with
      | ok i => exact legalAs_of_decode hr hd
      | error e => exact absurd ⟨e, hd⟩ h

/-- Performing an illegal word is the fault entry `ILLEGAL_CMD`. -/
theorem perform_of_illegalWord {s : State} (h : IllegalWord s.params.logicPresent s.cmd) :
    s.perform = .next (s.takeFault .illegalCmd) := by
  obtain ⟨e, he⟩ := illegalWord_iff_decode_error.mp h
  simp [State.perform, he, raise]

/-- Settles O5: the cases of R80 are the failures of R82's tests on the row the opcode selects, and the decoder's error is the
fault entry. -/
theorem illegalWordsRaise : Obligations.IllegalWordsRaise := by
  unfold Obligations.IllegalWordsRaise
  refine ⟨fun _ _ => illegalWord_iff_decode_error, fun _ => .inl (by decide), ?_⟩
  intro s w din how rest hs hr hf hw
  have hcmd : s.cmd = w := by simp [State.cmd, hs]
  rw [step_of_cmdReady (by simp [State.cmdValid, hs]) (by simp [State.cmdReady, hr, hf]),
    perform_of_illegalWord (hcmd.symm ▸ hw), mapNext_next]
  simp [State.takeFault, State.dropOffer, State.tick, hcmd, hs]

/-- Without the logic unit, the words of its rows fail R82's first test. -/
theorem decode_of_mem_logicOps {w : Word32} {r : OpRow} (hr : opRow (cmdOpcode w) = some r) (hop : r.op ∈ logicOps) :
    decode false w = .error .logicAbsent := by
  simp [decode, hr, hop]

/-- Settles O56: the four opcodes select the rows of the logic unit, and each of their commands checks for it first. -/
theorem absentLogicIsIllegal : Obligations.AbsentLogicIsIllegal := by
  unfold Obligations.AbsentLogicIsIllegal
  refine fun w vd va vb s => ⟨fun hw => ?_, fun hs i hi => ?_⟩
  · have hknown : [0x40, 0x41, 0x42, 0x43] ⊆ knownOpcodes := by decide
    obtain ⟨r, hr⟩ := exists_opRow_of_mem_knownOpcodes (hknown hw)
    rw [bitsOf_opcode_of_opRow hr, (onLists_of_mem (opRow_eq_some_iff.mp hr).1).logic] at hw
    exact decode_of_mem_logicOps hr hw
  · simp only [List.mem_cons, List.not_mem_nil, or_false] at hi
    rcases hi with rfl | rfl | rfl | rfl <;> exact requireLogic_absent hs _

/-! ## Numbers and operands of the assembly text (spec/30_encoding.md R83) -/

theorem charValue_of_isDigit {c : Char} (h : c.isDigit = true) : charValue c = some (c.toNat - '0'.toNat) := by
  simp only [Char.isDigit, Bool.and_eq_true, decide_eq_true_eq] at h
  exact if_pos h

theorem toNat_sub_lt_of_isDigit {c : Char} (h : c.isDigit = true) : c.toNat - '0'.toNat < 10 := by
  simp only [Char.isDigit, Bool.and_eq_true, decide_eq_true_eq, UInt32.le_iff_toNat_le] at h
  have hle : c.toNat ≤ 57 := h.2
  have hzero : '0'.toNat = 48 := rfl
  omega

/-- Reading decimal digits is the library's value of them. -/
theorem readDigits_ten {cs : List Char} (h : ∀ c ∈ cs, c.isDigit = true) (acc : Nat) :
    readDigits 10 acc cs = some (Nat.ofDigitChars 10 cs acc) := by
  induction cs generalizing acc with
  | nil => rfl
  | cons c cs ih =>
    obtain ⟨hc, hcs⟩ := List.forall_mem_cons.mp h
    rw [readDigits, charValue_of_isDigit hc, Nat.ofDigitChars_cons, Nat.mul_comm]
    exact (if_pos (toNat_sub_lt_of_isDigit hc)).trans (ih hcs _)

theorem isDigit_of_mem_toDigits {n : Nat} : ∀ c ∈ Nat.toDigits 10 n, c.isDigit = true :=
  fun _ => Nat.isDigit_of_mem_toDigits (by decide) (by decide)

theorem readDigits_toDigits (n : Nat) : readDigits 10 0 (Nat.toDigits 10 n) = some n := by
  rw [readDigits_ten isDigit_of_mem_toDigits, Nat.ofDigitChars_ten_toDigits]

/-- A text of decimal digits does not begin as a hexadecimal number does. -/
theorem readNumber_toDigits (n : Nat) : readNumber (Nat.toDigits 10 n) = some n := by
  have hdigit := isDigit_of_mem_toDigits (n := n)
  rw [← readDigits_toDigits n]
  generalize hcs : Nat.toDigits 10 n = cs at hdigit
  unfold readNumber
  split
  · exact absurd hcs Nat.toDigits_ne_nil
  · exact absurd (hdigit 'x' (by simp)) (by decide)
  · exact absurd (hdigit 'x' (by simp)) (by decide)
  · rfl

theorem readRegister_toDigits (r : Fin 16) : readRegister (Nat.toDigits 10 r.val) = some r := by
  unfold readRegister
  split
  next h => exact absurd h Nat.toDigits_ne_nil
  next => simp [readDigits_toDigits]

theorem readOperand_asmOperandChars (o : AsmOperand) : readOperand (asmOperandChars o) = some o := by
  cases o with
  | v r => simp [asmOperandChars, readOperand, readRegister_toDigits]
  | x r => simp [asmOperandChars, readOperand, readRegister_toDigits]
  | imm n =>
    have hdigit := isDigit_of_mem_toDigits (n := n)
    have hread := readNumber_toDigits n
    rw [asmOperandChars]
    generalize Nat.toDigits 10 n = cs at hdigit hread
    unfold readOperand
    split
    · exact absurd (hdigit 'v' (by simp)) (by decide)
    · exact absurd (hdigit 'x' (by simp)) (by decide)
    · rw [hread]
      rfl

/-! ## Tokens and lines -/

/-- A mnemonic or an operand as the text holds it: not empty, and no character that separates. -/
structure Token (cs : List Char) : Prop where
  ne_nil : cs ≠ []
  noSeparator : ∀ c ∈ cs, c ≠ ' ' ∧ c ≠ ',' ∧ c ≠ ';'

theorem token_mnemonicChars (op : Op) : Token (mnemonicChars op) := by
  cases op <;> exact ⟨by simp [mnemonicChars], by simp [mnemonicChars]⟩

theorem noSeparator_toDigits {n : Nat} : ∀ c ∈ Nat.toDigits 10 n, c ≠ ' ' ∧ c ≠ ',' ∧ c ≠ ';' := by
  intro c hc
  have hdigit := isDigit_of_mem_toDigits c hc
  refine ⟨?_, ?_, ?_⟩ <;> rintro rfl <;> cases hdigit

theorem token_asmOperandChars (o : AsmOperand) : Token (asmOperandChars o) := by
  cases o with
  | v r => exact ⟨List.cons_ne_nil _ _, List.forall_mem_cons.mpr ⟨by decide, noSeparator_toDigits⟩⟩
  | x r => exact ⟨List.cons_ne_nil _ _, List.forall_mem_cons.mpr ⟨by decide, noSeparator_toDigits⟩⟩
  | imm n => exact ⟨Nat.toDigits_ne_nil, noSeparator_toDigits⟩

theorem token_dinComment (n : Nat) : Token (['d', 'i', 'n', '='] ++ Nat.toDigits 10 n) :=
  ⟨List.cons_ne_nil _ _, List.forall_mem_append.mpr ⟨by simp, noSeparator_toDigits⟩⟩

/-! ### Spaces -/

theorem trimSpaces_eq_self {cs : List Char} (hhead : cs.head? ≠ some ' ') (hlast : cs.getLast? ≠ some ' ') :
    trimSpaces cs = cs := by
  rw [trimSpaces, List.dropWhile_beq_eq_self_of_head?_ne hhead, List.dropWhile_beq_eq_self_of_head?_ne, List.reverse_reverse]
  rwa [List.head?_reverse]

theorem trimSpaces_space_cons (cs : List Char) : trimSpaces (' ' :: cs) = trimSpaces cs := rfl

theorem trimSpaces_append_space (cs : List Char) : trimSpaces (cs ++ [' ']) = trimSpaces cs := by
  cases h : cs.dropWhile (· == ' ') <;> simp [trimSpaces, List.dropWhile_append, h]

/-! ### Commas -/

theorem splitCommas_ne_nil (cs : List Char) : splitCommas cs ≠ [] := by
  cases cs with
  | nil => exact List.cons_ne_nil _ _
  | cons c cs =>
    unfold splitCommas
    split
    · exact List.cons_ne_nil _ _
    · split <;> exact List.cons_ne_nil _ _

theorem splitCommas_comma_cons (cs : List Char) : splitCommas (',' :: cs) = [] :: splitCommas cs := by
  obtain ⟨p, ps, h⟩ := List.exists_cons_of_ne_nil (splitCommas_ne_nil cs)
  simp [splitCommas, h]

/-- Characters that are no comma go to the first piece. -/
theorem splitCommas_append {p cs q : List Char} {qs : List (List Char)} (hp : ∀ c ∈ p, c ≠ ',')
    (h : splitCommas cs = q :: qs) : splitCommas (p ++ cs) = (p ++ q) :: qs := by
  induction p with
  | nil => exact h
  | cons c p ih =>
    obtain ⟨hc, hp⟩ := List.forall_mem_cons.mp hp
    simp [splitCommas, ih hp, hc]

/-! ### A line of code: a mnemonic, a space, operands separated by commas -/

/-- The code of a line as R83 writes it, with any mnemonic, the pseudo-instruction's included. -/
def codeLine (name : List Char) (os : List AsmOperand) : List Char :=
  name ++ ' ' :: List.intercalate [',', ' '] (os.map asmOperandChars)

theorem asmText_eq_codeLine (i : Instr) : asmText i = codeLine (mnemonicChars (asmParts i).1) (asmParts i).2 := rfl

/-- Every operand of the line starts with the one space after the mnemonic or a comma. -/
theorem splitCommas_operands (o : AsmOperand) (os : List AsmOperand) :
    splitCommas (' ' :: List.intercalate [',', ' '] ((o :: os).map asmOperandChars)) =
      (o :: os).map (' ' :: asmOperandChars ·) := by
  have hcomma (o : AsmOperand) : ∀ c ∈ ' ' :: asmOperandChars o, c ≠ ',' :=
    List.forall_mem_cons.mpr ⟨by decide, fun c hc => ((token_asmOperandChars o).noSeparator c hc).2.1⟩
  induction os generalizing o with
  | nil => simpa [List.intercalate_singleton] using splitCommas_append (hcomma o) (cs := []) rfl
  | cons o' os ih =>
    have hrest := (splitCommas_comma_cons _).trans (congrArg ([] :: ·) (ih o'))
    simpa [List.intercalate_cons_cons] using splitCommas_append (hcomma o) hrest

theorem Token.head?_ne {cs : List Char} (h : Token cs) : cs.head? ≠ some ' ' :=
  fun hc => (h.noSeparator _ (List.mem_of_head? hc)).1 rfl

theorem Token.getLast?_ne {cs : List Char} (h : Token cs) : cs.getLast? ≠ some ' ' :=
  fun hc => (h.noSeparator _ (List.mem_of_getLast? hc)).1 rfl

theorem Token.trimSpaces_eq {cs : List Char} (h : Token cs) : trimSpaces cs = cs :=
  trimSpaces_eq_self h.head?_ne h.getLast?_ne

theorem mapM_readOperand (os : List AsmOperand) :
    (os.map (' ' :: asmOperandChars ·)).mapM (fun p => readOperand (trimSpaces p)) = some os := by
  have hread (o : AsmOperand) : readOperand (trimSpaces (' ' :: asmOperandChars o)) = some o := by
    rw [trimSpaces_space_cons, (token_asmOperandChars o).trimSpaces_eq, readOperand_asmOperandChars]
  induction os with
  | nil => rfl
  | cons o os ih => simp [List.mapM_cons, ih, hread]

theorem ne_semicolon_of_mem_codeLine {name : List Char} (hname : Token name) (o : AsmOperand) (os : List AsmOperand) :
    ∀ c ∈ codeLine name (o :: os), c ≠ ';' := by
  have hoperand (o : AsmOperand) : ∀ c ∈ asmOperandChars o, c ≠ ';' :=
    fun c hc => ((token_asmOperandChars o).noSeparator c hc).2.2
  suffices hrest : ∀ c ∈ List.intercalate [',', ' '] ((o :: os).map asmOperandChars), c ≠ ';' from
    List.forall_mem_append.mpr ⟨fun c hc => (hname.noSeparator c hc).2.2, List.forall_mem_cons.mpr ⟨by decide, hrest⟩⟩
  induction os generalizing o with
  | nil => simpa [List.intercalate_singleton] using hoperand o
  | cons o' os ih =>
    rw [List.map_cons, List.map_cons, List.intercalate_cons_cons]
    exact List.forall_mem_append.mpr ⟨List.forall_mem_append.mpr ⟨hoperand o, by simp⟩, ih o'⟩

theorem getLast?_codeLine_ne (name : List Char) (o : AsmOperand) (os : List AsmOperand) :
    (codeLine name (o :: os)).getLast? ≠ some ' ' := by
  rw [codeLine, List.getLast?_append_of_ne_nil _ (List.cons_ne_nil _ _)]
  induction os generalizing o with
  | nil =>
    have ho := token_asmOperandChars o
    rw [List.map_singleton, List.intercalate_singleton, List.getLast?_cons_of_ne_nil ho.ne_nil]
    exact ho.getLast?_ne
  | cons o' os ih =>
    have hsplit : ' ' :: List.intercalate [',', ' '] ((o :: o' :: os).map asmOperandChars) =
        (' ' :: asmOperandChars o ++ [',']) ++ ' ' :: List.intercalate [',', ' '] ((o' :: os).map asmOperandChars) := by
      simp [List.intercalate_cons_cons]
    rw [hsplit, List.getLast?_append_of_ne_nil _ (List.cons_ne_nil _ _)]
    exact ih o'

/-- What `assemble` makes of a line's code is the code itself: it holds no `;` and no space at its ends. -/
structure IsCode (cs : List Char) : Prop where
  noComment : ∀ c ∈ cs, c ≠ ';'
  trimmed : trimSpaces cs = cs

theorem isCode_codeLine {name : List Char} (hname : Token name) (o : AsmOperand) (os : List AsmOperand) :
    IsCode (codeLine name (o :: os)) where
  noComment := ne_semicolon_of_mem_codeLine hname o os
  trimmed := by
    refine trimSpaces_eq_self ?_ (getLast?_codeLine_ne name o os)
    rw [codeLine, List.head?_append_of_ne_nil _ hname.ne_nil]
    exact hname.head?_ne

theorem takeWhile_codeLine {name : List Char} (hname : Token name) (os : List AsmOperand) :
    (codeLine name os).takeWhile (· != ' ') = name := by
  have hspace : ∀ c ∈ name, (c != ' ') = true := fun c hc => bne_iff_ne.mpr (hname.noSeparator c hc).1
  rw [codeLine, List.takeWhile_append_of_pos hspace]
  simp

theorem dropWhile_codeLine {name : List Char} (hname : Token name) (os : List AsmOperand) :
    (codeLine name os).dropWhile (· != ' ') = ' ' :: List.intercalate [',', ' '] (os.map asmOperandChars) := by
  have hspace : ∀ c ∈ name, (c != ' ') = true := fun c hc => bne_iff_ne.mpr (hname.noSeparator c hc).1
  rw [codeLine, List.dropWhile_append_of_pos hspace]
  rfl

/-! ## Reading a command back (R83, R84) -/

/-- The operands of a code line, as `readInstr` reads them. -/
theorem mapM_readOperand_codeLine {name : List Char} (hname : Token name) (o : AsmOperand) (os : List AsmOperand) :
    (splitCommas ((codeLine name (o :: os)).dropWhile (· != ' '))).mapM (fun p => readOperand (trimSpaces p)) =
      some (o :: os) := by
  rw [dropWhile_codeLine hname, splitCommas_operands, mapM_readOperand]

theorem find?_mnemonicChars (op : Op) :
    ∃ r, opcodeMap.find? (fun r => mnemonicChars r.op == mnemonicChars op) = some r ∧ r.op = op := by
  cases op <;> exact ⟨_, rfl, rfl⟩

theorem readInstr_mnemonic (op : Op) (o : AsmOperand) (os : List AsmOperand) :
    readInstr (codeLine (mnemonicChars op) (o :: os)) = asmInstr op (o :: os) := by
  have hname := token_mnemonicChars op
  have hclrx : mnemonicChars op ≠ ['C', 'L', 'R', 'X'] := by cases op <;> decide
  obtain ⟨r, hr, rfl⟩ := find?_mnemonicChars op
  simp [readInstr, takeWhile_codeLine hname, mapM_readOperand_codeLine hname, hclrx, hr]

theorem token_clrx : Token ['C', 'L', 'R', 'X'] := ⟨by simp, by simp⟩

theorem readInstr_clrx (xd : XReg) : readInstr (codeLine ['C', 'L', 'R', 'X'] [.x xd]) = some (.xli xd 0) := by
  simp [readInstr, takeWhile_codeLine token_clrx, mapM_readOperand_codeLine token_clrx]

/-- An immediate's value is in the range the assembler takes, and stands for the immediate (R74). -/
theorem ite_imm_eq_some (n : Imm16) (f : Imm16 → Instr) :
    (if n.toNat < 65536 then some (f (BitVec.ofNat 16 n.toNat)) else none) = some (f n) := by
  rw [if_pos n.isLt, BitVec.ofNat_toNat, BitVec.setWidth_eq]

theorem asmInstr_asmParts (i : Instr) : asmInstr (asmParts i).1 (asmParts i).2 = some i := by
  cases i with
  | xli xd n => exact ite_imm_eq_some n (.xli xd)
  | vzero vd n => exact ite_imm_eq_some n (.vzero vd)
  | vwr vd xs n => exact ite_imm_eq_some n (.vwr vd xs)
  | vrd xd vs n => exact ite_imm_eq_some n (.vrd xd vs)
  | vpad vd vs n => exact ite_imm_eq_some n (.vpad vd vs)
  | _ => rfl

theorem asmParts_operands_ne_nil (i : Instr) : (asmParts i).2 ≠ [] := by
  cases i <;> exact List.cons_ne_nil _ _

/-- A command's text is the code of a line, and it reads back as the command. -/
theorem isCode_asmText_and_readInstr (i : Instr) : IsCode (asmText i) ∧ readInstr (asmText i) = some i := by
  obtain ⟨o, os, h⟩ := List.exists_cons_of_ne_nil (asmParts_operands_ne_nil i)
  have hread := asmInstr_asmParts i
  rw [asmText_eq_codeLine]
  rw [h] at hread ⊢
  exact ⟨isCode_codeLine (token_mnemonicChars _) o os, (readInstr_mnemonic _ o os).trans hread⟩

/-- A line without comment whose code is a command other than `XLD`. -/
theorem assemble_of_readInstr {line : List Char} {i : Instr} (hline : IsCode line) (hread : readInstr line = some i)
    (hi : ∀ xd, i ≠ .xld xd) : assemble line = some (.command (encode i) 0 .hold) := by
  have hcode : line.takeWhile (· != ';') = line :=
    List.takeWhile_eq_self_iff.mpr fun c hc => bne_iff_ne.mpr (hline.noComment c hc)
  rw [assemble, hcode, hline.trimmed, hread]
  cases i with
  | xld xd => exact absurd rfl (hi xd)
  | _ => rfl

/-- A line whose code is an `XLD`, with a space and a comment after it. -/
theorem assemble_xld {line comment : List Char} {xd : XReg} (hline : IsCode line) (hread : readInstr line = some (.xld xd)) :
    assemble (line ++ ' ' :: ';' :: comment) =
      (readDin (trimSpaces comment)).map fun d => .command (encode (.xld xd)) d .hold := by
  have hbne : ∀ c ∈ line, (c != ';') = true := fun c hc => bne_iff_ne.mpr (hline.noComment c hc)
  have hcode : (line ++ ' ' :: ';' :: comment).takeWhile (· != ';') = line ++ [' '] := by
    rw [List.takeWhile_append_of_pos hbne]
    rfl
  have hcomment : (line ++ ' ' :: ';' :: comment).dropWhile (· != ';') = ';' :: comment := by
    rw [List.dropWhile_append_of_pos hbne]
    rfl
  rw [assemble, hcode, hcomment, trimSpaces_append_space, hline.trimmed, hread]
  rfl

theorem readDin_dinComment (din : Word64) :
    readDin (['d', 'i', 'n', '='] ++ Nat.toDigits 10 din.toNat) = some din := by
  simp [readDin, readNumber_toDigits, din.isLt]

/-- Settles O6: a line is a code line, whose mnemonic and operands the assembler finds again, and a `DIN` comment is read as
the number written. -/
theorem assemblerReadsItsText : Obligations.AssemblerReadsItsText := by
  unfold Obligations.AssemblerReadsItsText
  refine ⟨fun i hi => ?_, fun xd din => ?_, fun xd => ?_⟩
  · obtain ⟨hline, hread⟩ := isCode_asmText_and_readInstr i
    exact assemble_of_readInstr hline hread hi
  · obtain ⟨hline, hread⟩ := isCode_asmText_and_readInstr (.xld xd)
    have hasm := assemble_xld (comment := ' ' :: (['d', 'i', 'n', '='] ++ Nat.toDigits 10 din.toNat)) hline hread
    rw [trimSpaces_space_cons, (token_dinComment _).trimSpaces_eq, readDin_dinComment] at hasm
    simpa using hasm
  · have htext : ['C', 'L', 'R', 'X', ' ', 'x'] ++ Nat.toDigits 10 xd.val = codeLine ['C', 'L', 'R', 'X'] [.x xd] := by
      simp [codeLine, asmOperandChars, List.intercalate_singleton]
    rw [htext]
    exact assemble_of_readInstr (isCode_codeLine token_clrx _ _) (readInstr_clrx xd) nofun

end Sys2Proof.Machine

namespace Sys2Proof.Machine

/-! ## Scalar digits (spec/40_scalar.md) -/

/-- A digit fits in a scalar register (R25, R7: `W` is at most 64). -/
theorem toNat_zext64_of_digit (p : Params) {d : Nat} (h : d < 2 ^ p.W) : (zext64 d).toNat = d :=
  zext64_toNat (h.trans_le (Nat.pow_le_pow_right (by decide) p.W_le))

/-- A carry, a borrow or an overflow fits in a scalar register (R26). -/
theorem toNat_zext64_of_le_one {c : Nat} (h : c ≤ 1) : (zext64 c).toNat = c :=
  zext64_toNat (h.trans_lt (by decide))

/-- What the two writes of `ADDS` and `SUBS`, a digit and then a carry or borrow, leave behind. -/
theorem writeX_digit_writeX_flag {d e : XReg} {s : State} {m c : Nat} (hne : d ≠ e) (hm : m < 2 ^ s.params.W) (hc : c ≤ 1) :
    (((s.writeX d (zext64 m)).writeX e (zext64 c)).readX d).toNat = m ∧
      (((s.writeX d (zext64 m)).writeX e (zext64 c)).readX e).toNat = c ∧
      Frame [] [d, e] s ((s.writeX d (zext64 m)).writeX e (zext64 c)) := by
  refine ⟨?_, ?_, (frame_writeX s d _).trans (frame_writeX _ e _)⟩
  · rw [State.readX_writeX_ne _ _ hne, State.readX_writeX_self, toNat_zext64_of_digit s.params hm]
  · rw [State.readX_writeX_self, toNat_zext64_of_le_one hc]

/-- The high digit of a product is below `MAXD` (R102): `a * b` is less than `2^W * (2^W - 1)`. -/
theorem mul_div_two_pow_le {W a b : Nat} (hW : 0 < W) (ha : a < 2 ^ W) (hb : b < 2 ^ W) : a * b / 2 ^ W ≤ 2 ^ W - 2 := by
  have hbase : 2 ≤ 2 ^ W := Nat.le_self_pow hW.ne' 2
  have hmul : a * b < 2 ^ W * (2 ^ W - 1) := Nat.mul_lt_mul_of_lt_of_le ha (by omega) (by omega)
  have hdiv : a * b / 2 ^ W < 2 ^ W - 1 := Nat.div_lt_of_lt_mul hmul
  omega

section
variable {xa xb : XReg} {s : State} (ha : (s.readX xa).toNat < 2 ^ s.params.W) (hb : (s.readX xb).toNat < 2 ^ s.params.W)
include ha hb

theorem exec_adds {xsum xcarry : XReg} (hne : xsum ≠ xcarry) :
    exec (.adds xsum xcarry xa xb) s =
      .next ((s.writeX xsum (zext64 (addScalars s.params.W (s.readX xa).toNat (s.readX xb).toNat).1)).writeX xcarry
        (zext64 (addScalars s.params.W (s.readX xa).toNat (s.readX xb).toNat).2)) := by
  rw [exec, execAdds, requireDistinct_ne hne, withDigit_ok ha, withDigit_ok hb]

theorem exec_subs {xdiff xborrow : XReg} (hne : xdiff ≠ xborrow) :
    exec (.subs xdiff xborrow xa xb) s =
      .next ((s.writeX xdiff (zext64 (subtractScalars s.params.W (s.readX xa).toNat (s.readX xb).toNat).1)).writeX xborrow
        (zext64 (subtractScalars s.params.W (s.readX xa).toNat (s.readX xb).toNat).2)) := by
  rw [exec, execSubs, requireDistinct_ne hne, withDigit_ok ha, withDigit_ok hb]

theorem exec_muls (vd : VReg) :
    exec (.muls vd xa xb) s =
      .next (s.writeV vd (multiplyScalars s.params.W (s.readX xa).toNat (s.readX xb).toNat)) := by
  rw [exec, execMuls, withDigit_ok ha, withDigit_ok hb]

end

/-- Settles O31: the two registers hold the results of `addScalars`, whose exact equation is that of the adder. -/
theorem addsIsExact : Obligations.AddsIsExact := by
  unfold Obligations.AddsIsExact
  intro xsum xcarry xa xb s W a b hne ha hb
  obtain ⟨hdigit, hflag, hexact⟩ := addScalars_spec ha hb.le
  obtain ⟨hsum, hcarry, hframe⟩ := writeX_digit_writeX_flag hne hdigit hflag
  refine ⟨_, exec_adds ha hb hne, hsum, hcarry, ?_, hframe⟩
  rw [hsum, hcarry, Nat.mul_comm, hexact]

/-- Settles O32: the two registers hold the results of `subtractScalars`, whose exact equation is that of the subtractor. -/
theorem subsIsExact : Obligations.SubsIsExact := by
  unfold Obligations.SubsIsExact
  intro xdiff xborrow xa xb s W a b hne ha hb
  obtain ⟨hdigit, hflag, hexact⟩ := subtractScalars_spec ha hb.le
  obtain ⟨hdiff, hborrow, hframe⟩ := writeX_digit_writeX_flag hne hdigit hflag
  refine ⟨_, exec_subs ha hb hne, hborrow, hdiff.trans_lt hdigit, ?_, hframe⟩
  rw [hdiff, hborrow, Nat.mul_comm, hexact]

/-- Settles O33: the two digits are the remainder and the quotient of the product by `2^W`. -/
theorem mulsIsExact : Obligations.MulsIsExact := by
  unfold Obligations.MulsIsExact
  intro vd xa xb s W a b ha hb
  exact ⟨_, a * b % 2 ^ W, a * b / 2 ^ W, exec_muls ha hb vd, State.readV_writeV_self s vd _,
    Nat.mod_lt _ (Nat.two_pow_pos W), mul_div_two_pow_le s.params.W_pos ha hb, Nat.mod_add_div' (a * b) (2 ^ W),
    frame_writeV s vd _⟩

end Sys2Proof.Machine

namespace Sys2Proof.Machine

/-! ## Comparator and equality test (spec/41_compare.md R120 to R123) -/

theorem digitsOk_reverse {W : Nat} {N : Number} : DigitsOk W N.reverse ↔ DigitsOk W N := by
  simp [DigitsOk]

theorem val_reverse_cons (W d : Nat) (ds : List Nat) :
    val W (d :: ds).reverse = val W ds.reverse + 2 ^ (W * ds.length) * d := by
  simp [val_append]

/-- A larger leading digit outweighs whatever stands below it. -/
theorem add_mul_lt_add_mul {x p a b : Nat} (y : Nat) (hx : x < p) (hab : a < b) : x + p * a < y + p * b :=
  calc x + p * a < p + p * a := Nat.add_lt_add_right hx _
    _ = p * (a + 1) := by ring
    _ ≤ p * b := Nat.mul_le_mul_left p hab
    _ ≤ y + p * b := Nat.le_add_left _ _

theorem compareScan_cons_of_lt {a b : Nat} (h : a < b) (as bs : List Nat) :
    compareScan (a :: as) (b :: bs) = .lessThan := by
  simp [compareScan, h, h.not_gt]

theorem compareScan_cons_of_gt {a b : Nat} (h : b < a) (as bs : List Nat) :
    compareScan (a :: as) (b :: bs) = .greaterThan := by
  simp [compareScan, h]

theorem compareScan_cons_self (a : Nat) (as bs : List Nat) :
    compareScan (a :: as) (a :: bs) = compareScan as bs := by
  simp [compareScan]

/-- The scan from the most significant digit down decides the order of the values (R120, R124). -/
theorem compareScan_eq_ite_val {W : Nat} {A B : List Nat} (hl : A.length = B.length) (hA : DigitsOk W A)
    (hB : DigitsOk W B) :
    compareScan A B = if val W A.reverse < val W B.reverse then .lessThan
      else if val W A.reverse = val W B.reverse then .equal else .greaterThan := by
  induction A generalizing B with
  | nil =>
    cases List.length_eq_zero_iff.mp hl.symm
    rfl
  | cons a as ih =>
    cases B with
    | nil => cases hl
    | cons b bs =>
      obtain ⟨-, has⟩ := digitsOk_cons.mp hA
      obtain ⟨-, hbs⟩ := digitsOk_cons.mp hB
      have hlen : as.length = bs.length := Nat.succ.inj hl
      have has_lt : val W as.reverse < 2 ^ (W * bs.length) := by
        simpa [hlen] using val_lt (digitsOk_reverse.mpr has)
      have hbs_lt : val W bs.reverse < 2 ^ (W * bs.length) := by
        simpa using val_lt (digitsOk_reverse.mpr hbs)
      rw [val_reverse_cons, val_reverse_cons, hlen]
      rcases lt_trichotomy a b with hab | rfl | hab
      · rw [compareScan_cons_of_lt hab, if_pos (add_mul_lt_add_mul _ has_lt hab)]
      · rw [compareScan_cons_self, ih hlen has hbs]
        simp
      · have hval := add_mul_lt_add_mul (val W as.reverse) hbs_lt hab
        rw [compareScan_cons_of_gt hab, if_neg hval.not_gt, if_neg hval.ne']

theorem compareNum_eq_ite_val {W : Nat} {A B : Number} (hl : A.length = B.length) (hA : DigitsOk W A)
    (hB : DigitsOk W B) :
    compareNum A B =
      if val W A < val W B then .lessThan else if val W A = val W B then .equal else .greaterThan := by
  rw [compareNum, compareScan_eq_ite_val (by simpa using hl) (digitsOk_reverse.mpr hA) (digitsOk_reverse.mpr hB),
    List.reverse_reverse, List.reverse_reverse]

theorem exec_cmp {va vb : VReg} {s : State} (hl : (s.readV va).length = (s.readV vb).length) (xd : XReg) :
    exec (.cmp xd va vb) s = .next (s.writeX xd (comparisonCode (compareNum (s.readV va) (s.readV vb)))) :=
  require_true hl _ _ _

/-- Settles O34: the register holds the code of the comparison, which is the order of the values. -/
theorem cmpOrdersByValue : Obligations.CmpOrdersByValue := by
  unfold Obligations.CmpOrdersByValue
  intro xd va vb s W A B hl hA hB
  refine ⟨_, exec_cmp hl xd, ?_, frame_writeX s xd _⟩
  rw [State.readX_writeX_self, compareNum_eq_ite_val hl hA hB]
  split_ifs <;> rfl

theorem exec_eq (xd : XReg) (va vb : VReg) (s : State) :
    exec (.eq xd va vb) s = .next (s.writeX xd (flagWord (numbersEqual (s.readV va) (s.readV vb)))) := rfl

theorem flagWord_eq_one_iff (b : Bool) : flagWord b = 1 ↔ b = true := by
  cases b <;> decide

theorem flagWord_eq_zero_or_one (b : Bool) : flagWord b = 0 ∨ flagWord b = 1 := by
  cases b <;> decide

/-- R122 digit by digit: equal lengths and pairwise equal digits make equal numbers. -/
theorem eq_iff_length_and_digits (A B : Number) :
    A = B ↔ A.length = B.length ∧ ∀ k < A.length, A[k]? = B[k]? := by
  constructor
  · rintro rfl
    exact ⟨rfl, fun _ _ => rfl⟩
  · rintro ⟨hl, hd⟩
    exact List.ext_getElem?' fun k hk => hd k (by simpa [← hl] using hk)

/-- Settles O35: the register holds the flag of `numbersEqual`, which is equality of the numbers. -/
theorem eqTestsLengthAndDigits : Obligations.EqTestsLengthAndDigits := by
  unfold Obligations.EqTestsLengthAndDigits
  intro xd va vb s
  refine ⟨_, exec_eq xd va vb s, ?_, ?_, frame_writeX s xd _⟩
  · rw [State.readX_writeX_self, flagWord_eq_one_iff, numbersEqual_iff, eq_iff_length_and_digits]
  · rw [State.readX_writeX_self]
    exact flagWord_eq_zero_or_one _

end Sys2Proof.Machine

namespace Sys2Proof.Machine

/-! ## Adder and subtractor (spec/42_addsub.md R140 to R146) -/

/-- One digit of the adder's loop (R140): the result digit and the new running carry. -/
def addDigit (W c a b : Nat) : Nat × Nat :=
  ((addScalars W (addScalars W a c).1 b).1, (addScalars W a c).2 + (addScalars W (addScalars W a c).1 b).2)

/-- One digit of the subtractor's loop (R143): the result digit and the new running borrow. -/
def subtractDigit (W w a b : Nat) : Nat × Nat :=
  ((subtractScalars W (subtractScalars W a w).1 b).1,
    (subtractScalars W a w).2 + (subtractScalars W (subtractScalars W a w).1 b).2)

theorem sumFrom_cons (W c a b : Nat) (as bs : Number) :
    sumFrom W c (a :: as) (b :: bs) =
      ((addDigit W c a b).1 :: (sumFrom W (addDigit W c a b).2 as bs).1, (sumFrom W (addDigit W c a b).2 as bs).2) := rfl

theorem subtractFrom_cons (W w a b : Nat) (as bs : Number) :
    subtractFrom W w (a :: as) (b :: bs) =
      ((subtractDigit W w a b).1 :: (subtractFrom W (subtractDigit W w a b).2 as bs).1,
        (subtractFrom W (subtractDigit W w a b).2 as bs).2) := rfl

section
variable {W a b c : Nat} (ha : a < 2 ^ W) (hb : b < 2 ^ W) (hc : c ≤ 1)
include ha hb hc

/-- The digit and the carry are the exact sum, and a sum below `2 * 2^W` carries at most 1. -/
theorem addDigit_spec :
    (addDigit W c a b).2 ≤ 1 ∧ (addDigit W c a b).1 + 2 ^ W * (addDigit W c a b).2 = a + b + c := by
  obtain ⟨ht, -, hfirst⟩ := addScalars_spec ha (hc.trans Nat.one_le_two_pow)
  obtain ⟨-, -, hsecond⟩ := addScalars_spec ht hb.le
  have hexact : (addDigit W c a b).1 + 2 ^ W * (addDigit W c a b).2 = a + b + c := by
    rw [addDigit, Nat.mul_add]
    omega
  have hcarry : 2 ^ W * (addDigit W c a b).2 < 2 ^ W * 2 := by omega
  exact ⟨Nat.le_of_lt_succ (Nat.lt_of_mul_lt_mul_left hcarry), hexact⟩

/-- The digit and the borrow are the exact difference, and taking less than `2 * 2^W` borrows at most 1. -/
theorem subtractDigit_spec :
    (subtractDigit W c a b).2 ≤ 1 ∧ a + 2 ^ W * (subtractDigit W c a b).2 = b + c + (subtractDigit W c a b).1 := by
  obtain ⟨ht, -, hfirst⟩ := subtractScalars_spec ha (hc.trans Nat.one_le_two_pow)
  obtain ⟨hdigit, -, hsecond⟩ := subtractScalars_spec ht hb.le
  have hexact : a + 2 ^ W * (subtractDigit W c a b).2 = b + c + (subtractDigit W c a b).1 := by
    rw [subtractDigit, Nat.mul_add]
    omega
  have hborrow : 2 ^ W * (subtractDigit W c a b).2 < 2 ^ W * 2 := by
    rw [subtractDigit] at hexact ⊢
    omega
  exact ⟨Nat.le_of_lt_succ (Nat.lt_of_mul_lt_mul_left hborrow), hexact⟩

end

/-- Settles O39: the carry and the borrow out of a digit, by the exact equations of the digit. -/
theorem runningCarryAndBorrowStayBelowTwo : Obligations.RunningCarryAndBorrowStayBelowTwo := by
  unfold Obligations.RunningCarryAndBorrowStayBelowTwo
  intro W a b c ha hb hc
  exact ⟨(addDigit_spec ha hb hc).1, (subtractDigit_spec ha hb hc).1⟩

theorem length_sumFrom (W c : Nat) {A B : Number} (hl : A.length = B.length) :
    (sumFrom W c A B).1.length = A.length := by
  induction A generalizing c B with
  | nil => rfl
  | cons a as ih =>
    cases B with
    | nil => cases hl
    | cons b bs => simp [sumFrom_cons, ih _ (Nat.succ.inj hl)]

theorem length_subtractFrom (W w : Nat) {A B : Number} (hl : A.length = B.length) :
    (subtractFrom W w A B).1.length = A.length := by
  induction A generalizing w B with
  | nil => rfl
  | cons a as ih =>
    cases B with
    | nil => cases hl
    | cons b bs => simp [subtractFrom_cons, ih _ (Nat.succ.inj hl)]

/-- The adder's loop from a carry of at most 1: the result and the last carry are the exact sum (R141). -/
theorem sumFrom_exact {W c : Nat} {A B : Number} (hl : A.length = B.length) (hA : DigitsOk W A) (hB : DigitsOk W B)
    (hc : c ≤ 1) :
    (sumFrom W c A B).2 ≤ 1 ∧
      val W (sumFrom W c A B).1 + (sumFrom W c A B).2 * 2 ^ (W * A.length) = val W A + val W B + c := by
  induction A generalizing c B with
  | nil =>
    cases List.length_eq_zero_iff.mp hl.symm
    exact ⟨hc, by simp [sumFrom]⟩
  | cons a as ih =>
    cases B with
    | nil => cases hl
    | cons b bs =>
      obtain ⟨ha, has⟩ := digitsOk_cons.mp hA
      obtain ⟨hb, hbs⟩ := digitsOk_cons.mp hB
      obtain ⟨hcarry, hdigit⟩ := addDigit_spec ha hb hc
      obtain ⟨hov, hrest⟩ := ih (Nat.succ.inj hl) has hbs hcarry
      refine ⟨hov, ?_⟩
      simp only [sumFrom_cons, val_cons, List.length_cons, Nat.mul_succ, Nat.pow_add]
      linear_combination hdigit + 2 ^ W * hrest

/-- The subtractor's loop from a borrow of at most 1: the result and the last borrow are the exact difference (R144). -/
theorem subtractFrom_exact {W w : Nat} {A B : Number} (hl : A.length = B.length) (hA : DigitsOk W A) (hB : DigitsOk W B)
    (hw : w ≤ 1) :
    (subtractFrom W w A B).2 ≤ 1 ∧
      val W A + (subtractFrom W w A B).2 * 2 ^ (W * A.length) = val W B + val W (subtractFrom W w A B).1 + w := by
  induction A generalizing w B with
  | nil =>
    cases List.length_eq_zero_iff.mp hl.symm
    exact ⟨hw, by simp [subtractFrom]⟩
  | cons a as ih =>
    cases B with
    | nil => cases hl
    | cons b bs =>
      obtain ⟨ha, has⟩ := digitsOk_cons.mp hA
      obtain ⟨hb, hbs⟩ := digitsOk_cons.mp hB
      obtain ⟨hborrow, hdigit⟩ := subtractDigit_spec ha hb hw
      obtain ⟨hov, hrest⟩ := ih (Nat.succ.inj hl) has hbs hborrow
      refine ⟨hov, ?_⟩
      simp only [subtractFrom_cons, val_cons, List.length_cons, Nat.mul_succ, Nat.pow_add]
      linear_combination hdigit + 2 ^ W * hrest

/-- A number that differs from a value by a multiple of `2^(W*n)` is the value's `num_n`. -/
theorem eq_num_of_exact {W q v : Nat} {R : Number} (hR : DigitsOk W R) (h : val W R + q * 2 ^ (W * R.length) = v) :
    R = num W R.length v := by
  rw [← h, ← num_mod, Nat.add_mul_mod_self_right, num_mod, num_val hR]

/-- A flag `c` that takes `c * p` off a value to leave less than `p` says whether the value reaches `p`. -/
theorem flag_eq_ite_le {c p r v : Nat} (hc : c ≤ 1) (hr : r < p) (h : r + c * p = v) : c = if p ≤ v then 1 else 0 := by
  rcases Nat.le_one_iff_eq_zero_or_eq_one.mp hc with rfl | rfl
  · rw [if_neg (by omega)]
  · rw [if_pos (by omega)]

/-- A flag `c` that adds `c * p` to a difference to leave less than `p` says whether the difference is negative. -/
theorem flag_eq_ite_lt {c p r a b : Nat} (hc : c ≤ 1) (hr : r < p) (h : a + c * p = b + r) : c = if a < b then 1 else 0 := by
  rcases Nat.le_one_iff_eq_zero_or_eq_one.mp hc with rfl | rfl
  · rw [if_neg (by omega)]
  · rw [if_pos (by omega)]

/-- The result of an exact subtraction is the difference modulo `p`. -/
theorem toNat_sub_emod_of_exact {c p r a b : Nat} (hr : r < p) (h : a + c * p = b + r) : (((a : Int) - b) % p).toNat = r := by
  have hdiff : (a : Int) - b = r - c * p := by
    zify at h
    linear_combination h
  rw [hdiff, Int.sub_mul_emod_self_right, Int.emod_eq_of_lt (Int.natCast_nonneg r) (Int.ofNat_lt.mpr hr), Int.toNat_natCast]

/-- R141: the truncated sum, the overflow, and the exact equation between them. -/
theorem sum_spec {W : Nat} {A B : Number} (hl : A.length = B.length) (hA : DigitsOk W A) (hB : DigitsOk W B) :
    (sum W A B).1 = num W A.length (val W A + val W B) ∧ (sum W A B).2 ≤ 1 ∧
      (sum W A B).2 = (if 2 ^ (W * A.length) ≤ val W A + val W B then 1 else 0) ∧
      val W (sum W A B).1 + (sum W A B).2 * 2 ^ (W * A.length) = val W A + val W B := by
  obtain ⟨hov, hexact⟩ : (sum W A B).2 ≤ 1 ∧ _ := sumFrom_exact hl hA hB (Nat.zero_le 1)
  have hR : DigitsOk W (sum W A B).1 := digitsOk_sumFrom W 0 A B
  have hlen : (sum W A B).1.length = A.length := length_sumFrom W 0 hl
  rw [← hlen] at hexact ⊢
  exact ⟨eq_num_of_exact hR hexact, hov, flag_eq_ite_le hov (val_lt hR) hexact, hexact⟩

/-- R144: the wrapped difference, the overflow, and the exact equation between them. -/
theorem subtract_spec {W : Nat} {A B : Number} (hl : A.length = B.length) (hA : DigitsOk W A) (hB : DigitsOk W B) :
    (subtract W A B).1 = num W A.length (((val W A : Int) - val W B) % 2 ^ (W * A.length)).toNat ∧
      (subtract W A B).2 ≤ 1 ∧
      (subtract W A B).2 = (if val W A < val W B then 1 else 0) ∧
      val W A + (subtract W A B).2 * 2 ^ (W * A.length) = val W B + val W (subtract W A B).1 := by
  obtain ⟨hov, hexact⟩ : (subtract W A B).2 ≤ 1 ∧ _ := subtractFrom_exact hl hA hB (Nat.zero_le 1)
  have hR : DigitsOk W (subtract W A B).1 := digitsOk_subtractFrom W 0 A B
  have hlen : (subtract W A B).1.length = A.length := length_subtractFrom W 0 hl
  rw [← hlen] at hexact ⊢
  refine ⟨?_, hov, flag_eq_ite_lt hov (val_lt hR) hexact, hexact⟩
  have hdiff := toNat_sub_emod_of_exact (val_lt hR) hexact
  rw [Nat.cast_pow, Nat.cast_ofNat] at hdiff
  rw [hdiff, num_val hR]

/-- What the two writes of `ADD` and `SUB`, a number and then its overflow, leave behind. -/
theorem writeV_writeX_flag {c : Nat} (hc : c ≤ 1) (vd : VReg) (xovf : XReg) (s : State) (N : Number) :
    ((s.writeV vd N).writeX xovf (zext64 c)).readV vd = N ∧
      (((s.writeV vd N).writeX xovf (zext64 c)).readX xovf).toNat = c ∧
      Frame [vd] [xovf] s ((s.writeV vd N).writeX xovf (zext64 c)) := by
  refine ⟨by simp, ?_, (frame_writeV s vd N).trans (frame_writeX _ xovf _)⟩
  rw [State.readX_writeX_self, toNat_zext64_of_le_one hc]

section
variable {va vb : VReg} {s : State} (hl : (s.readV va).length = (s.readV vb).length)
include hl

theorem exec_add (vd : VReg) (xovf : XReg) :
    exec (.add vd xovf va vb) s =
      .next ((s.writeV vd (sum s.params.W (s.readV va) (s.readV vb)).1).writeX xovf
        (zext64 (sum s.params.W (s.readV va) (s.readV vb)).2)) :=
  require_true hl _ _ _

theorem exec_sub (vd : VReg) (xovf : XReg) :
    exec (.sub vd xovf va vb) s =
      .next ((s.writeV vd (subtract s.params.W (s.readV va) (s.readV vb)).1).writeX xovf
        (zext64 (subtract s.params.W (s.readV va) (s.readV vb)).2)) :=
  require_true hl _ _ _

end

/-- Settles O37: the two registers hold the results of `sum`, whose loop is exact from carry 0. -/
theorem addIsExactModuloItsWidth : Obligations.AddIsExactModuloItsWidth := by
  unfold Obligations.AddIsExactModuloItsWidth
  intro vd xovf va vb s W A B n hl hA hB
  obtain ⟨hsum, hflag, hovf, hexact⟩ := sum_spec hl hA hB
  obtain ⟨hv, hx, hframe⟩ := writeV_writeX_flag hflag vd xovf s (sum W A B).1
  refine ⟨_, exec_add hl vd xovf, hv.trans hsum, hx.trans hovf, ?_, hframe⟩
  rw [hv, hx, hexact]

/-- Settles O38: the two registers hold the results of `subtract`, whose loop is exact from borrow 0. -/
theorem subIsExactModuloItsWidth : Obligations.SubIsExactModuloItsWidth := by
  unfold Obligations.SubIsExactModuloItsWidth
  intro vd xovf va vb s W A B n hl hA hB
  obtain ⟨hdiff, hflag, hovf, hexact⟩ := subtract_spec hl hA hB
  obtain ⟨hv, hx, hframe⟩ := writeV_writeX_flag hflag vd xovf s (subtract W A B).1
  refine ⟨_, exec_sub hl vd xovf, hv.trans hdiff, hx.trans hovf, ?_, hframe⟩
  rw [hv, hx, hexact]

end Sys2Proof.Machine

namespace Sys2Proof.Machine

/-! ## Multipliers (spec/43_multiply.md R160 to R166) -/

/-- Settles O40: `2^W` times the carry out is at most `a * b + c`, which is below `2^W * (2^W - 1)` (R161's arithmetic). -/
theorem rowCarryStaysBelowMaxd : Obligations.RowCarryStaysBelowMaxd := by
  unfold Obligations.RowCarryStaysBelowMaxd
  intro W a b c hW ha hb hc
  have hbase : 2 ≤ 2 ^ W := Nat.le_self_pow hW.ne' 2
  have hcarry := mul_rowCarry_le a b (c := c) (W := W) (by omega)
  have hlt : a * b + c < 2 ^ W * (2 ^ W - 1) := calc
    a * b + c < a * (2 ^ W - 1) + (2 ^ W - 1) :=
      Nat.add_lt_add_of_le_of_lt (Nat.mul_le_mul_left a (Nat.le_sub_one_of_lt hb)) (by omega)
    _ = (a + 1) * (2 ^ W - 1) := (Nat.succ_mul a _).symm
    _ ≤ 2 ^ W * (2 ^ W - 1) := Nat.mul_le_mul_right _ ha
  exact Nat.le_sub_one_of_lt (Nat.lt_of_mul_lt_mul_left (hcarry.trans_lt hlt))

/-- The loop of R160 drops no bit: its result is the exact product plus the carry it starts from. -/
theorem val_multiplyByScalarFrom {W a c : Nat} {B : Number} (ha : a < 2 ^ W) (hB : DigitsOk W B) (hc : c < 2 ^ W) :
    val W (multiplyByScalarFrom W a c B) = a * val W B + c := by
  induction B generalizing c with
  | nil => simp [multiplyByScalarFrom]
  | cons b bs ih =>
    obtain ⟨hb, hbs⟩ := digitsOk_cons.mp hB
    obtain ⟨-, -, hadd⟩ := addScalars_spec (Nat.mod_lt (a * b) (Nat.two_pow_pos W)) hc.le
    have hmul := Nat.mod_add_div (a * b) (2 ^ W)
    rw [multiplyByScalarFrom, val_cons, ih hbs (rowCarry_lt ha hb hc), val_cons]
    linear_combination hadd + hmul

/-- R160: the length, the digits and the exact value of a digit times a number. -/
theorem multiplyByScalar_spec {W a : Nat} {B : Number} (ha : a < 2 ^ W) (hB : DigitsOk W B) :
    (multiplyByScalar W a B).length = B.length + 1 ∧ DigitsOk W (multiplyByScalar W a B) ∧
      val W (multiplyByScalar W a B) = a * val W B :=
  ⟨length_multiplyByScalarFrom W a 0 B, digitsOk_multiplyByScalarFrom ha hB (Nat.two_pow_pos W),
    val_multiplyByScalarFrom ha hB (Nat.two_pow_pos W)⟩

theorem exec_mulsc {xa : XReg} {vb : VReg} {s : State} (ha : (s.readX xa).toNat < 2 ^ s.params.W)
    (hcap : (s.readV vb).length + 1 ≤ s.params.cap) (vd : VReg) :
    exec (.mulsc vd xa vb) s =
      .next (s.writeV vd (multiplyByScalar s.params.W (s.readX xa).toNat (s.readV vb))) := by
  rw [exec, execMulsc, withDigit_ok ha, require_true hcap]

/-- Settles O41: the destination holds the result of `multiplyByScalar`, whose loop is exact from carry 0. -/
theorem mulscIsExact : Obligations.MulscIsExact := by
  unfold Obligations.MulscIsExact
  intro vd xa vb s W a B ha hB hcap
  refine ⟨_, exec_mulsc ha hcap vd, ?_⟩
  rw [State.readV_writeV_self]
  obtain ⟨hlen, hdigits, hval⟩ := multiplyByScalar_spec ha hB
  exact ⟨hlen, hdigits, hval, frame_writeV s vd _⟩

/-- Moving a padded number up drops only zeros of the padding when the number still fits (R164). -/
theorem digitShiftUp_padRight {N : Number} {m k : Nat} (h : N.length + k ≤ m) :
    digitShiftUp (padRight N m) k = zeros k ++ padRight N (m - k) := by
  have hrest : m - k - N.length = m - N.length - k := by omega
  rw [digitShiftUp, length_padRight (by omega), padRight, padRight, List.take_append, List.take_append,
    List.take_of_length_le (by simp; omega), List.take_of_length_le (by simp; omega)]
  simp [zeros, hrest]

/-- The low digits of a number and the digit above them. -/
theorem val_take_succ (W : Nat) {A : Number} {k : Nat} (hk : k < A.length) :
    val W (A.take (k + 1)) = val W (A.take k) + 2 ^ (W * k) * A.getD k 0 := by
  rw [List.take_succ_eq_append_getElem hk, val_append, List.length_take_of_le hk.le, List.getD_eq_getElem A 0 hk]
  simp

/-- The accumulator of R163 after `k` rounds: the sum of the rows below `k`. -/
def accumulatedRows (W : Nat) (A B : Number) (k : Nat) : Number :=
  (List.range k).foldl (fun P i => (sum W P (multiplyRow W A B i)).1) (zeros (2 * A.length))

theorem multiply_eq_accumulatedRows (W : Nat) (A B : Number) : multiply W A B = accumulatedRows W A B A.length := rfl

theorem accumulatedRows_succ (W : Nat) (A B : Number) (k : Nat) :
    accumulatedRows W A B (k + 1) = (sum W (accumulatedRows W A B k) (multiplyRow W A B k)).1 := by
  simp [accumulatedRows, List.range_succ]

section
variable {W : Nat} {A B : Number} (hl : A.length = B.length) (hA : DigitsOk W A) (hB : DigitsOk W B)
include hl hA hB

/-- Row `k` is a number of `2n` digits with the exact value of its digit's share of the product. -/
theorem multiplyRow_spec {k : Nat} (hk : k < A.length) :
    (multiplyRow W A B k).length = 2 * A.length ∧ DigitsOk W (multiplyRow W A B k) ∧
      val W (multiplyRow W A B k) = 2 ^ (W * k) * (A.getD k 0 * val W B) := by
  have hdigit : A.getD k 0 < 2 ^ W := by
    rw [List.getD_eq_getElem A 0 hk]
    exact hA _ (List.getElem_mem hk)
  obtain ⟨hlen, hdigits, hval⟩ := multiplyByScalar_spec hdigit hB
  refine ⟨?_, digitsOk_digitShiftUp (digitsOk_padRight hdigits _) k, ?_⟩
  · rw [multiplyRow, length_digitShiftUp, length_padRight (by omega)]
  · rw [multiplyRow, digitShiftUp_padRight (by omega), val_append, val_zeros, val_padRight, hval, length_zeros,
      Nat.zero_add]

/-- Every partial product fits in `2n` digits (R164). -/
theorem val_take_mul_val_lt (k : Nat) : val W (A.take k) * val W B < 2 ^ (W * (2 * A.length)) := by
  have htake : val W (A.take k) < 2 ^ (W * A.length) :=
    (val_lt fun d hd => hA d (List.mem_of_mem_take hd)).trans_le
      (Nat.pow_le_pow_right (by decide) (Nat.mul_le_mul_left W (List.length_take_le' k A)))
  have hB' : val W B < 2 ^ (W * A.length) := hl ▸ val_lt hB
  calc val W (A.take k) * val W B < 2 ^ (W * A.length) * 2 ^ (W * A.length) := Nat.mul_lt_mul'' htake hB'
    _ = 2 ^ (W * (2 * A.length)) := by ring

/-- One accumulation of R163: row `k` takes the partial product of the digits below `k` to that of the digits up to `k`, with
no overflow. -/
theorem sum_num_multiplyRow {k : Nat} (hk : k < A.length) :
    sum W (num W (2 * A.length) (val W (A.take k) * val W B)) (multiplyRow W A B k) =
      (num W (2 * A.length) (val W (A.take (k + 1)) * val W B), 0) := by
  obtain ⟨hlen, hdigits, hval⟩ := multiplyRow_spec hl hA hB hk
  obtain ⟨hsum, -, hovf, -⟩ := sum_spec (A := num W (2 * A.length) (val W (A.take k) * val W B))
    (by rw [length_num, hlen]) (digitsOk_num _ _ _) hdigits
  have hnext : val W (A.take k) * val W B + val W (multiplyRow W A B k) = val W (A.take (k + 1)) * val W B := by
    rw [hval, val_take_succ W hk]
    ring
  rw [length_num, val_num, Nat.mod_eq_of_lt (val_take_mul_val_lt hl hA hB k), hnext] at hsum hovf
  rw [if_neg (Nat.not_le.mpr (val_take_mul_val_lt hl hA hB (k + 1)))] at hovf
  exact Prod.ext hsum hovf

/-- The invariant of R163's loop: after `k` rounds it holds the product of the low `k` digits of `A` with `B`. -/
theorem accumulatedRows_eq_num {k : Nat} (hk : k ≤ A.length) :
    accumulatedRows W A B k = num W (2 * A.length) (val W (A.take k) * val W B) := by
  induction k with
  | zero => simp [accumulatedRows, zeros_eq_num W]
  | succ k ih => rw [accumulatedRows_succ, ih (Nat.le_of_succ_le hk), sum_num_multiplyRow hl hA hB hk]

/-- R166: the accumulated rows are the product in `2n` digits. -/
theorem multiply_eq_num : multiply W A B = num W (2 * A.length) (val W A * val W B) := by
  rw [multiply_eq_accumulatedRows, accumulatedRows_eq_num hl hA hB le_rfl, List.take_length]

/-- R164: the product is exact. -/
theorem val_multiply : val W (multiply W A B) = val W A * val W B := by
  have hfits := val_take_mul_val_lt hl hA hB A.length
  rw [List.take_length] at hfits
  rw [multiply_eq_num hl hA hB, val_num, Nat.mod_eq_of_lt hfits]

end

/-- Settles O42, by the invariant of the accumulation: each partial sum is the product of the low digits, which fits. -/
theorem schoolbookIsTheExactProduct : Obligations.SchoolbookIsTheExactProduct := by
  unfold Obligations.SchoolbookIsTheExactProduct
  intro W A B _ hl hA hB
  refine ⟨multiply_eq_num hl hA hB, val_multiply hl hA hB, fun k hk => ?_⟩
  change (sum W (accumulatedRows W A B k) (multiplyRow W A B k)).2 = 0
  rw [accumulatedRows_eq_num hl hA hB hk.le, sum_num_multiplyRow hl hA hB hk]

theorem exec_mul {va vb : VReg} {s : State} (hl : (s.readV va).length = (s.readV vb).length)
    (hcap : 2 * (s.readV va).length ≤ s.params.cap) (vd : VReg) :
    exec (.mul vd va vb) s = .next (s.writeV vd (multiply s.params.W (s.readV va) (s.readV vb))) := by
  rw [exec, execMul, require_true hl, require_true hcap]

/-- Settles O43: the destination holds the result of `multiply`, which is the product in `2n` digits. -/
theorem mulWritesTheExactProduct : Obligations.MulWritesTheExactProduct := by
  unfold Obligations.MulWritesTheExactProduct
  intro vd va vb s W A B hl hcap hA hB
  refine ⟨_, exec_mul hl hcap vd, ?_⟩
  rw [State.readV_writeV_self]
  refine ⟨?_, (multiply_length_le_and_digitsOk W A B).2, val_multiply hl hA hB, frame_writeV s vd _⟩
  rw [multiply_eq_num hl hA hB, length_num]

end Sys2Proof.Machine

namespace Sys2Proof.Machine

/-! ## Divider (spec/44_divide.md R180 to R184) -/

/-- A value no larger than a number's survives `num_n` at that number's length. -/
theorem val_num_of_le_val {W v : Nat} {A : Number} (hA : DigitsOk W A) (hv : v ≤ val W A) :
    val W (num W A.length v) = v := by
  rw [val_num, Nat.mod_eq_of_lt (hv.trans_lt (val_lt hA))]

theorem val_quotient {W : Nat} {A : Number} (hA : DigitsOk W A) (B : Number) :
    val W (quotient W A B) = val W A / val W B :=
  val_num_of_le_val hA (Nat.div_le_self _ _)

theorem val_remainder {W : Nat} {A : Number} (hA : DigitsOk W A) (B : Number) :
    val W (remainder W A B) = val W A % val W B :=
  val_num_of_le_val hA (Nat.mod_le _ _)

theorem exec_div {vq vr va vb : VReg} {s : State} (hne : vq ≠ vr) (hl : (s.readV va).length = (s.readV vb).length)
    (hb : val s.params.W (s.readV vb) ≠ 0) :
    exec (.div vq vr va vb) s =
      .next ((s.writeV vq (quotient s.params.W (s.readV va) (s.readV vb))).writeV vr
        (remainder s.params.W (s.readV va) (s.readV vb))) := by
  rw [exec, execDiv, requireDistinct_ne hne, require_true hl, require_true hb]

/-- What two writes of different number registers leave behind. -/
theorem writeV_writeV {d e : VReg} (hne : d ≠ e) (s : State) (M N : Number) :
    ((s.writeV d M).writeV e N).readV d = M ∧ ((s.writeV d M).writeV e N).readV e = N ∧
      Frame [d, e] [] s ((s.writeV d M).writeV e N) := by
  refine ⟨?_, State.readV_writeV_self _ e N, (frame_writeV s d M).trans (frame_writeV _ e N)⟩
  rw [State.readV_writeV_ne _ N hne, State.readV_writeV_self]

/-- Settles O44: the two registers hold `quotient` and `remainder`, whose values fit in the dividend's length. -/
theorem divIsExact : Obligations.DivIsExact := by
  unfold Obligations.DivIsExact
  intro vq vr va vb s W A B hne hl hA _ hb
  obtain ⟨hq, hr, hframe⟩ := writeV_writeV hne s (quotient W A B) (remainder W A B)
  refine ⟨_, exec_div hne hl (Nat.ne_of_gt hb), ?_⟩
  rw [hq, hr, val_quotient hA, val_remainder hA]
  exact ⟨length_num _ _ _, length_num _ _ _, digitsOk_num _ _ _, digitsOk_num _ _ _, Nat.div_add_mod _ _,
    Nat.mod_lt _ hb, hframe⟩

/-! ### The leading zero count and the divisor's top bit (spec/45_shift.md R210, R182) -/

theorem size_eq_log2_add_one {d : Nat} (hd : d ≠ 0) : d.size = d.log2 + 1 :=
  le_antisymm (Nat.size_le.mpr Nat.lt_log2_self) (Nat.lt_size.mpr (Nat.log2_self_le hd))

/-- `lzc(d)` is what the digit width leaves above the bit length of `d` (R13). -/
theorem lzcDigit_add_size {W d : Nat} (hd : d < 2 ^ W) : lzcDigit W d + d.size = W := by
  have hle : d.size ≤ W := Nat.size_le.mpr hd
  by_cases h0 : d = 0
  · simp [lzcDigit, h0]
  · rw [size_eq_log2_add_one h0] at hle ⊢
    rw [lzcDigit, if_neg h0]
    omega

/-- The bit length of a value whose leading digit `d` stands above `p` lower bits. -/
theorem size_add_two_pow_mul {x p d : Nat} (hx : x < 2 ^ p) (hd : d ≠ 0) : (x + 2 ^ p * d).size = p + d.size := by
  apply le_antisymm
  · rw [Nat.size_le, Nat.pow_add]
    simpa using add_mul_lt_add_mul 0 hx (Nat.lt_size_self d)
  · rw [size_eq_log2_add_one hd, ← Nat.add_assoc, Nat.succ_le_iff, Nat.lt_size, Nat.pow_add]
    exact (Nat.mul_le_mul_left _ (Nat.log2_self_le hd)).trans (Nat.le_add_left _ _)

/-- The scan from the most significant digit down stops at the top bit of the value. -/
theorem countScan_lzcDigit_add_size {W : Nat} {ds : List Nat} (h : DigitsOk W ds) :
    countScan (lzcDigit W) ds + (val W ds.reverse).size = W * ds.length := by
  induction ds with
  | nil => rfl
  | cons d ds ih =>
    obtain ⟨hd, hds⟩ := digitsOk_cons.mp h
    have hlzc := lzcDigit_add_size hd
    rw [val_reverse_cons, List.length_cons, Nat.mul_succ, countScan]
    by_cases h0 : d = 0
    · subst h0
      rw [if_pos rfl, Nat.mul_zero, Nat.add_zero, Nat.add_assoc, ih hds, Nat.add_comm]
      simpa using hlzc
    · have hlow : val W ds.reverse < 2 ^ (W * ds.length) := by
        simpa using val_lt (digitsOk_reverse.mpr hds)
      rw [if_neg h0, size_add_two_pow_mul hlow h0]
      omega

/-- R210: the leading zero count and the bit length of the value make up the total width. -/
theorem numberLeadingZeroBitCount_add_size {W : Nat} {N : Number} (hN : DigitsOk W N) :
    numberLeadingZeroBitCount W N + (val W N).size = W * N.length := by
  simpa [numberLeadingZeroBitCount] using countScan_lzcDigit_add_size (digitsOk_reverse.mpr hN)

/-- The `k` of R182 is the highest set-bit index of the divisor's value. -/
theorem topBit_eq_log2 {W : Nat} {B : Number} (hB : DigitsOk W B) (hb : val W B ≠ 0) : topBit W B = (val W B).log2 := by
  have hlzc := numberLeadingZeroBitCount_add_size hB
  rw [size_eq_log2_add_one hb] at hlzc
  rw [topBit]
  omega

/-! ### The bisection (R182 to R184) -/

/-- The bisection invariant of R183: `a - l * b` is not negative and `a - u * b` is. -/
structure Bounds.Enclose (a b : Nat) (p : Bounds) : Prop where
  lower : p.l * b ≤ a
  upper : a < p.u * b

theorem Bounds.Enclose.l_lt_u {a b : Nat} {p : Bounds} (h : p.Enclose a b) : p.l < p.u :=
  Nat.lt_of_mul_lt_mul_right (h.lower.trans_lt h.upper)

/-- R183: `b < 2^(k+1)` bounds `l * b` and `b >= 2^k` bounds `u * b`. -/
theorem enclose_initialBounds {W : Nat} {A B : Number} (hB : DigitsOk W B) (hb : val W B ≠ 0) :
    (initialBounds W A B).Enclose (val W A) (val W B) := by
  rw [initialBounds, topBit_eq_log2 hB hb, Nat.shiftRight_eq_div_pow, Nat.shiftRight_eq_div_pow]
  constructor
  · exact (Nat.mul_le_mul_left _ Nat.lt_log2_self.le).trans (Nat.div_mul_le_self _ _)
  · exact (Nat.lt_mul_of_div_lt (Nat.lt_succ_self _) (Nat.two_pow_pos _)).trans_le
      (Nat.mul_le_mul_left _ (Nat.log2_self_le hb))

theorem midpoint_eq_add_half (l u : Nat) : midpoint l u = l + (u - l) / 2 := by
  rw [midpoint, Nat.shiftRight_one]

/-- R184: bounds two apart have a value between them. -/
theorem midpoint_strictly_between {l u : Nat} (h : 2 ≤ u - l) : l < midpoint l u ∧ midpoint l u < u := by
  rw [midpoint_eq_add_half]
  omega

/-- Settles O45: the initial bounds enclose the quotient by the top bit of the divisor, and half a gap of at least 2 is neither
nothing nor all of it. -/
theorem bisectionBoundsEnclose : Obligations.BisectionBoundsEnclose := by
  unfold Obligations.BisectionBoundsEnclose
  refine ⟨fun W A B _ _ _ hB hb => ?_, fun l u => midpoint_strictly_between⟩
  obtain ⟨hlower, hupper⟩ := enclose_initialBounds (A := A) hB (by omega)
  exact ⟨hlower, hupper⟩

theorem bisect_of_gap_le_one {a b : Nat} {p : Bounds} (h : p.u - p.l ≤ 1) (fuel : Nat) :
    bisect a b fuel p = (p.l, a - p.l * b) := by
  cases fuel with
  | zero => rfl
  | succ fuel => exact if_neg (by omega)

/-- One round of R182, its sign test read as the order of `m * b` and `a`. -/
theorem bisect_succ {a b : Nat} {p : Bounds} (hgap : 1 < p.u - p.l) (fuel : Nat) :
    bisect a b (fuel + 1) p =
      if midpoint p.l p.u * b = a then (midpoint p.l p.u, 0)
      else if midpoint p.l p.u * b < a then bisect a b fuel { p with l := midpoint p.l p.u }
      else bisect a b fuel { p with u := midpoint p.l p.u } := by
  have hzero : (a : Int) - midpoint p.l p.u * b = 0 ↔ midpoint p.l p.u * b = a := by
    zify
    omega
  have hpos : (a : Int) - midpoint p.l p.u * b > 0 ↔ midpoint p.l p.u * b < a := by
    zify
    omega
  simp only [bisect, if_pos hgap, hzero, hpos]

/-- R180: the quotient and remainder are the numbers that meet the division equation. -/
theorem pair_eq_div_mod {a b q r : Nat} (h : q * b + r = a) (hr : r < b) : (q, r) = (a / b, a % b) := by
  have hb : 0 < b := Nat.zero_lt_of_lt hr
  have hexact : r + b * q = a := by
    rw [← h, Nat.mul_comm, Nat.add_comm]
  obtain ⟨hq, hm⟩ := (Nat.div_mod_unique hb).mpr ⟨hexact, hr⟩
  rw [hq, hm]

/-- Bounds that enclose the quotient and are at most one apart have it as the lower one (R183). -/
theorem Bounds.Enclose.eq_div_mod_of_gap_le_one {a b : Nat} {p : Bounds} (h : p.Enclose a b) (hgap : p.u - p.l ≤ 1) :
    (p.l, a - p.l * b) = (a / b, a % b) := by
  have hu : p.u = p.l + 1 := by
    have := h.l_lt_u
    omega
  obtain ⟨hlower, hupper⟩ := h
  rw [hu, Nat.succ_mul] at hupper
  exact pair_eq_div_mod (by omega) (by omega)

/-- The bisection from bounds that enclose the quotient, at most `2^fuel` apart: each round keeps the enclosure and at least
halves the bound on the gap (R183, R184). -/
theorem bisect_eq_div_mod {a b fuel : Nat} {p : Bounds} (h : p.Enclose a b) (hfuel : p.u - p.l ≤ 2 ^ fuel) :
    bisect a b fuel p = (a / b, a % b) := by
  induction fuel generalizing p with
  | zero => exact h.eq_div_mod_of_gap_le_one hfuel
  | succ fuel ih =>
    rcases Nat.lt_or_ge 1 (p.u - p.l) with hgap | hgap
    · have hmid := midpoint_eq_add_half p.l p.u
      rw [Nat.pow_succ] at hfuel
      rcases lt_trichotomy (midpoint p.l p.u * b) a with hlt | heq | hgt
      · rw [bisect_succ hgap, if_neg hlt.ne, if_pos hlt]
        exact ih ⟨hlt.le, h.upper⟩ (by dsimp only; omega)
      · have hb : 0 < b := Nat.pos_of_mul_pos_left (Nat.zero_lt_of_lt h.upper)
        rw [bisect_succ hgap, if_pos heq]
        exact pair_eq_div_mod heq hb
      · rw [bisect_succ hgap, if_neg hgt.ne', if_neg hgt.not_gt]
        exact ih ⟨h.lower, hgt⟩ (by dsimp only; omega)
    · rw [bisect_of_gap_le_one hgap]
      exact h.eq_div_mod_of_gap_le_one hgap

/-- R184: the initial gap is at most `2^(W*n)`. -/
theorem initialBounds_gap_le {W : Nat} {A : Number} (hA : DigitsOk W A) (B : Number) :
    (initialBounds W A B).u - (initialBounds W A B).l ≤ 2 ^ (W * A.length) :=
  calc (initialBounds W A B).u - (initialBounds W A B).l ≤ (val W A >>> topBit W B) + 1 := Nat.sub_le _ _
    _ ≤ val W A + 1 := Nat.succ_le_succ (Nat.shiftRight_le _ _)
    _ ≤ 2 ^ (W * A.length) := val_lt hA

/-- Settles O46: the initial bounds enclose the quotient with a gap that `W * n` rounds halve to at most 1. -/
theorem bisectionComputesTheDivision : Obligations.BisectionComputesTheDivision := by
  unfold Obligations.BisectionComputesTheDivision
  intro W A B _ _ hA hB hb
  rw [divideBisect, bisect_eq_div_mod (enclose_initialBounds hB (by omega)) (initialBounds_gap_le hA B)]

end Sys2Proof.Machine

namespace Sys2Proof.Machine

/-! ## Digits of a value (spec/00_scope.md R10) -/

/-- Digit `k` of `num_n(v)` is `floor(v / 2^(W*k)) mod 2^W` (R10). -/
theorem num_eq_map_range (W n v : Nat) : num W n v = (List.range n).map fun k => v / 2 ^ (W * k) % 2 ^ W := by
  induction n generalizing v with
  | zero => rfl
  | succ n ih =>
    have hdigit : ∀ k, v / 2 ^ W / 2 ^ (W * k) = v / 2 ^ (W * (k + 1)) := fun k => by
      rw [Nat.div_div_eq_div_mul, ← Nat.pow_add, Nat.mul_succ, Nat.add_comm]
    simp [num, ih, List.range_succ_eq_map, hdigit]

theorem getD_lt_two_pow {W : Nat} {M : Number} (hM : DigitsOk W M) (j : Nat) : M.getD j 0 < 2 ^ W := by
  rcases Nat.lt_or_ge j M.length with hj | hj
  · rw [List.getD_eq_getElem _ _ hj]
    exact hM _ (List.getElem_mem hj)
  · rw [List.getD_eq_default _ _ hj]
    exact Nat.two_pow_pos W

/-- From digit `j` upward a value is that digit below what stands from digit `j + 1` upward. -/
theorem val_div_eq_getD_add {W : Nat} {M : Number} (hM : DigitsOk W M) (j : Nat) :
    val W M / 2 ^ (W * j) = M.getD j 0 + 2 ^ W * (val W M / 2 ^ (W * (j + 1))) := by
  induction M generalizing j with
  | nil => simp
  | cons d ds ih =>
    obtain ⟨hd, hds⟩ := digitsOk_cons.mp hM
    have hdrop : ∀ k, val W (d :: ds) / 2 ^ (W * (k + 1)) = val W ds / 2 ^ (W * k) := fun k => by
      rw [Nat.mul_succ, Nat.add_comm, Nat.pow_add, ← Nat.div_div_eq_div_mul, val_cons,
        Nat.add_mul_div_left _ _ (Nat.two_pow_pos W), Nat.div_eq_of_lt hd, Nat.zero_add]
    cases j with
    | zero => rw [hdrop]; simp
    | succ j => rw [hdrop, hdrop, ih hds, List.getD_cons_succ]

/-- The `W` bits of a value from bit `W * j + r` upward are those of the two digits at `j`, `r` bits above the lower one's
bottom (R201). -/
theorem val_window {W r : Nat} {M : Number} (hM : DigitsOk W M) (hr : r ≤ W) (j : Nat) :
    (M.getD j 0 + 2 ^ W * M.getD (j + 1) 0) / 2 ^ r % 2 ^ W = val W M / 2 ^ (W * j + r) % 2 ^ W := by
  have hsplit : 2 ^ W = 2 ^ r * 2 ^ (W - r) := (pow_mul_pow_sub 2 hr).symm
  have habove : ∀ x, 2 ^ W * (2 ^ W * x) = 2 ^ r * (2 ^ W * (2 ^ (W - r) * x)) := fun x => by
    linear_combination 2 ^ W * x * hsplit
  rw [Nat.pow_add, ← Nat.div_div_eq_div_mul, val_div_eq_getD_add hM j, val_div_eq_getD_add hM (j + 1), Nat.mul_add,
    ← Nat.add_assoc, habove, Nat.add_mul_div_left _ _ (Nat.two_pow_pos r), Nat.add_mul_mod_self_left]

/-! ## The digit loops of the shifter (spec/45_shift.md R201 to R203, R206) -/

/-- A composed digit holds the `W` bits that stand `r` bits above the bottom of `lo`. -/
theorem composeRight_eq {W hi lo r : Nat} (hlo : lo < 2 ^ W) (hr : r ≤ W) :
    composeRight W hi lo r = (lo + 2 ^ W * hi) / 2 ^ r % 2 ^ W := by
  by_cases h0 : r = 0
  · simp [composeRight, h0, Nat.mod_eq_of_lt hlo]
  · have hsplit : 2 ^ W = 2 ^ r * 2 ^ (W - r) := (pow_mul_pow_sub 2 hr).symm
    have hlow : lo / 2 ^ r < 2 ^ (W - r) := Nat.div_lt_of_lt_mul (hsplit ▸ hlo)
    have hsum : (lo + 2 ^ W * hi) / 2 ^ r = hi <<< (W - r) ||| lo / 2 ^ r := by
      rw [← Nat.shiftLeft_add_eq_or_of_lt hlow, Nat.shiftLeft_eq, hsplit, Nat.mul_assoc,
        Nat.add_mul_div_left _ _ (Nat.two_pow_pos r), Nat.add_comm, Nat.mul_comm hi]
    rw [composeRight, if_neg h0, hsum, Nat.or_mod_two_pow, Nat.mod_eq_of_lt ((Nat.div_le_self _ _).trans_lt hlo),
      Nat.shiftRight_eq_div_pow, Nat.or_comm]

/-- The left shift at misalignment `r` composes as the right shift at `W - r` does. -/
theorem composeLeft_eq {W hi lo r : Nat} (hhi : hi < 2 ^ W) (hlo : lo < 2 ^ W) (hr : r < W) :
    composeLeft W hi lo r = (lo + 2 ^ W * hi) / 2 ^ (W - r) % 2 ^ W := by
  by_cases h0 : r = 0
  · rw [composeLeft, if_pos h0, h0, Nat.sub_zero, Nat.add_mul_div_left _ _ (Nat.two_pow_pos W), Nat.div_eq_of_lt hlo,
      Nat.zero_add, Nat.mod_eq_of_lt hhi]
  · have hright : composeRight W hi lo (W - r) = composeLeft W hi lo r := by
      rw [composeRight, composeLeft, if_neg (by omega), if_neg h0, Nat.sub_sub_self hr.le, Nat.or_comm]
    rw [← hright, composeRight_eq hlo (Nat.sub_le W r)]

/-- The right shifts read the number continued upward by digits `out` (R201). -/
theorem srcDigit_eq_getD_append_replicate (N : Number) (out : Nat) {j k : Nat} (hj : j < N.length + k) :
    srcDigit N out j = (N ++ List.replicate k out).getD j 0 := by
  rcases Nat.lt_or_ge j N.length with hn | hn
  · rw [srcDigit, if_pos (by omega), Int.toNat_natCast, List.getD_append _ _ _ _ hn, List.getD_eq_getElem _ _ hn,
      List.getD_eq_getElem _ _ hn]
  · rw [srcDigit, if_neg (by omega), List.getD_append_right _ _ _ _ hn, List.getD_replicate]
    omega

/-- The left shift reads the number moved up by zero digits (R201). -/
theorem srcDigit_sub_eq_getD_zeros_append (N : Number) (j k : Nat) :
    srcDigit N 0 ((j : Int) - k) = (zeros k ++ N).getD j 0 := by
  rcases Nat.lt_or_ge j k with hk | hk
  · rw [srcDigit, if_neg (by omega), List.getD_append _ _ _ _ (by simpa using hk), zeros, List.getD_replicate _ hk]
  · rw [List.getD_append_right _ _ _ _ (by simpa using hk), length_zeros, srcDigit, ← Int.ofNat_sub hk, Int.toNat_natCast]
    split
    · rfl
    · exact (List.getD_eq_default _ _ (by omega)).symm

theorem digitsOk_append {W : Nat} {A B : Number} (hA : DigitsOk W A) (hB : DigitsOk W B) : DigitsOk W (A ++ B) :=
  List.forall_mem_append.mpr ⟨hA, hB⟩

theorem digitsOk_replicate {W d : Nat} (hd : d < 2 ^ W) (k : Nat) : DigitsOk W (List.replicate k d) :=
  fun _ he => List.eq_of_mem_replicate he ▸ hd

/-- The loop of R202 and R206 composes digits of the number continued upward by digits `out`. -/
theorem shiftRightDigits_eq_map (W : Nat) (N : Number) (out t : Nat) :
    shiftRightDigits W N out t = (List.range N.length).map fun d : Nat =>
      composeRight W ((N ++ List.replicate (t / W + 1) out).getD (d + t / W + 1) 0)
        ((N ++ List.replicate (t / W + 1) out).getD (d + t / W) 0) (t % W) := by
  simp only [shiftRightDigits, bind_pure_comp, List.map_eq_map, List.map_map]
  refine List.map_congr_left fun d hd => ?_
  have hd : d < N.length := List.mem_range.mp hd
  rw [← srcDigit_eq_getD_append_replicate N out (by omega), ← srcDigit_eq_getD_append_replicate N out (by omega)]
  simp only [Function.comp_apply, Nat.cast_add, Nat.cast_one]

/-- The loop of R203 composes digits of the number moved up by `q + 1` digits. -/
theorem shiftLeftDigits_eq_map (W : Nat) (N : Number) (t : Nat) :
    shiftLeftDigits W N t = (List.range N.length).map fun d : Nat =>
      composeLeft W ((zeros (t / W + 1) ++ N).getD (d + 1) 0) ((zeros (t / W + 1) ++ N).getD d 0) (t % W) := by
  simp only [shiftLeftDigits, bind_pure_comp, List.map_eq_map, List.map_map]
  refine List.map_congr_left fun d _ => ?_
  have hhi : (d : Int) - (t / W : Nat) = (d + 1 : Nat) - (t / W + 1 : Nat) := by omega
  have hlo : (d : Int) - (t / W : Nat) - 1 = d - (t / W + 1 : Nat) := by omega
  rw [Function.comp_apply, hlo, hhi, srcDigit_sub_eq_getD_zeros_append, srcDigit_sub_eq_getD_zeros_append]

/-- The loop of R202 and R206 divides the value of the number continued upward by digits `out`. -/
theorem shiftRightDigits_eq_num {W out : Nat} {N : Number} (hW : 0 < W) (hN : DigitsOk W N) (ho : out < 2 ^ W) (t : Nat) :
    shiftRightDigits W N out t = num W N.length (val W (N ++ List.replicate (t / W + 1) out) / 2 ^ t) := by
  have hr : t % W ≤ W := (Nat.mod_lt t hW).le
  have hM := digitsOk_append hN (digitsOk_replicate ho (t / W + 1))
  rw [shiftRightDigits_eq_map, num_eq_map_range]
  refine List.map_congr_left fun d _ => ?_
  have hbit : W * (d + t / W) + t % W = t + W * d := by
    rw [Nat.mul_add, Nat.add_assoc, Nat.div_add_mod, Nat.add_comm]
  rw [composeRight_eq (getD_lt_two_pow hM _) hr, val_window hM hr, hbit, Nat.pow_add, Nat.div_div_eq_div_mul]

/-- The loop of R203 multiplies the value: a move up by `q + 1` digits, less `W - r` bits, is a shift by `t` bits. -/
theorem shiftLeftDigits_eq_num {W : Nat} {N : Number} (hW : 0 < W) (hN : DigitsOk W N) (t : Nat) :
    shiftLeftDigits W N t = num W N.length (val W N * 2 ^ t) := by
  have hr : t % W < W := Nat.mod_lt t hW
  have hM := digitsOk_append (digitsOk_zeros W (t / W + 1)) hN
  have hbits : W * (t / W + 1) = W - t % W + t := by
    have := Nat.div_add_mod t W
    rw [Nat.mul_succ]
    omega
  have hval : val W N * 2 ^ t = val W (zeros (t / W + 1) ++ N) / 2 ^ (W - t % W) := by
    rw [val_append, val_zeros, length_zeros, Nat.zero_add, hbits, Nat.pow_add, Nat.mul_assoc,
      Nat.mul_div_cancel_left _ (Nat.two_pow_pos _), Nat.mul_comm]
  rw [hval, shiftLeftDigits_eq_map, num_eq_map_range]
  refine List.map_congr_left fun d _ => ?_
  rw [composeLeft_eq (getD_lt_two_pow hM _) (getD_lt_two_pow hM _) hr, val_window hM (Nat.sub_le W _),
    Nat.div_div_eq_div_mul, ← Nat.pow_add, Nat.add_comm (W * d)]

/-- The value of the number continued upward by fill digits (R206). -/
theorem val_append_replicate (W f : Nat) (N : Number) (k : Nat) :
    val W (N ++ List.replicate k f) = val W N + f * ∑ j ∈ Finset.Ico N.length (N.length + k), 2 ^ (W * j) := by
  induction k with
  | zero => simp
  | succ k ih =>
    rw [List.replicate_succ', ← List.append_assoc, val_append, ih, ← Nat.add_assoc,
      Finset.sum_Ico_succ_top (Nat.le_add_right _ k)]
    simp only [List.length_append, List.length_replicate, val_cons, val_nil]
    ring

/-! ## The shift functions at a count `t >= 0` (R202, R203) -/

theorem shiftRightBy_eq_num {W : Nat} {N : Number} (hW : 0 < W) (hN : DigitsOk W N) (t : Nat) :
    shiftRightBy W N t = num W N.length (val W N / 2 ^ t) := by
  rw [shiftRightBy]
  split
  next ht =>
    rw [Nat.div_eq_of_lt ((val_lt hN).trans_le (Nat.pow_le_pow_right (by decide) ht)), zeros_eq_num W]
  next =>
    rw [shiftRightDigits_eq_num hW hN (Nat.two_pow_pos W), val_append_replicate, Nat.zero_mul, Nat.add_zero]

theorem shiftLeftBy_eq_num {W : Nat} {N : Number} (hW : 0 < W) (hN : DigitsOk W N) (t : Nat) :
    shiftLeftBy W N t = num W N.length (val W N * 2 ^ t) := by
  rw [shiftLeftBy]
  split
  next ht =>
    rw [← num_mod W _ (_ * _), Nat.mod_eq_zero_of_dvd ((Nat.pow_dvd_pow 2 ht).mul_left _), zeros_eq_num W]
  next => exact shiftLeftDigits_eq_num hW hN t

/-! ## The shift commands at a signed count (R200) -/

theorem bitShiftLeft_eq_num {W : Nat} {N : Number} (hW : 0 < W) (hN : DigitsOk W N) (c : Int) :
    bitShiftLeft W N c =
      if c < 0 then num W N.length (val W N / 2 ^ (-c).toNat) else num W N.length (val W N * 2 ^ c.toNat) := by
  rw [bitShiftLeft, shiftRightBy_eq_num hW hN, shiftLeftBy_eq_num hW hN]

theorem bitShiftRight_eq_num {W : Nat} {N : Number} (hW : 0 < W) (hN : DigitsOk W N) (c : Int) :
    bitShiftRight W N c =
      if c < 0 then num W N.length (val W N * 2 ^ (-c).toNat) else num W N.length (val W N / 2 ^ c.toNat) := by
  rw [bitShiftRight, shiftRightBy_eq_num hW hN, shiftLeftBy_eq_num hW hN]

theorem bitShiftRightFill_eq_num {W f : Nat} {N : Number} (hW : 0 < W) (hN : DigitsOk W N) (hf : f < 2 ^ W) (c : Int) :
    bitShiftRightFill W N c f =
      if c < 0 then num W N.length (val W N * 2 ^ (-c).toNat)
      else num W N.length
        ((val W N + f * ∑ j ∈ Finset.Icc N.length (N.length + c.toNat / W), 2 ^ (W * j)) / 2 ^ c.toNat) := by
  rw [bitShiftRightFill, shiftLeftBy_eq_num hW hN, shiftRightDigits_eq_num hW hN hf, val_append_replicate, ← Nat.add_assoc,
    Finset.Ico_add_one_right_eq_Icc]

/-- Settles O47: the destination holds the result of `bitShiftLeft`, whose digit loops shift the value. -/
theorem shlShiftsTheValue : Obligations.ShlShiftsTheValue := by
  unfold Obligations.ShlShiftsTheValue
  intro vd vs xt s W N c hN
  exact ⟨_, rfl, (State.readV_writeV_self s vd _).trans (bitShiftLeft_eq_num s.params.W_pos hN c), frame_writeV s vd _⟩

/-- Settles O48: the destination holds the result of `bitShiftRight`, whose digit loops shift the value. -/
theorem shrShiftsTheValue : Obligations.ShrShiftsTheValue := by
  unfold Obligations.ShrShiftsTheValue
  intro vd vs xt s W N c hN
  exact ⟨_, rfl, (State.readV_writeV_self s vd _).trans (bitShiftRight_eq_num s.params.W_pos hN c), frame_writeV s vd _⟩

theorem exec_shrf {xf : XReg} {s : State} (hf : (s.readX xf).toNat < 2 ^ s.params.W) (vd vs : VReg) (xt : XReg) :
    exec (.shrf vd vs xt xf) s =
      .next (s.writeV vd (bitShiftRightFill s.params.W (s.readV vs) (s.shiftCount xt) (s.readX xf).toNat)) := by
  rw [exec, execShrf, withDigit_ok hf]

/-- Settles O49: the digit check lets the fill digit pass, and the digit loop reads the number continued upward by it. -/
theorem shrfShiftsInTheFill : Obligations.ShrfShiftsInTheFill := by
  unfold Obligations.ShrfShiftsInTheFill
  intro vd vs xt xf s W N c f hN hf
  exact ⟨_, exec_shrf hf vd vs xt,
    (State.readV_writeV_self s vd _).trans (bitShiftRightFill_eq_num s.params.W_pos hN hf c), frame_writeV s vd _⟩

/-! ## Trailing zero bits (R212) -/

/-- A power of 2 divides a nonzero digit when its exponent is at most `tzc` of the digit (R13). -/
theorem two_pow_dvd_iff_le_tzcBelow {k d : Nat} (h0 : d ≠ 0) (hd : d < 2 ^ k) (m : Nat) :
    2 ^ m ∣ d ↔ m ≤ tzcBelow k d := by
  induction k generalizing d m with
  | zero => omega
  | succ k ih =>
    cases m with
    | zero => simp
    | succ m =>
      rw [tzcBelow]
      by_cases hodd : d % 2 = 1
      · have hdvd : ¬ 2 ^ (m + 1) ∣ d := fun h => by
          have := (Nat.dvd_mul_left 2 (2 ^ m)).trans h
          omega
        simp [hodd, hdvd]
      · have hhalf : d / 2 * 2 = d := by omega
        have hdvd : 2 ^ m * 2 ∣ d / 2 * 2 ↔ 2 ^ m ∣ d / 2 := Nat.mul_dvd_mul_iff_right (by decide)
        rw [hhalf, ← Nat.pow_succ] at hdvd
        rw [hdvd, if_neg hodd, Nat.add_comm 1, Nat.succ_le_succ_iff, ih (by omega) (by omega)]

theorem tzcBelow_zero (k : Nat) : tzcBelow k 0 = k := by
  induction k with
  | zero => rfl
  | succ k ih => simp [tzcBelow, ih, Nat.add_comm]

/-- The digits above a nonzero digit do not change which powers of 2 divide the value. -/
theorem two_pow_dvd_add_iff {W d : Nat} (h0 : d ≠ 0) (hd : d < 2 ^ W) (m v : Nat) : 2 ^ m ∣ d + 2 ^ W * v ↔ 2 ^ m ∣ d := by
  rcases Nat.le_total m W with hm | hm
  · exact (Nat.dvd_add_iff_left ((Nat.pow_dvd_pow 2 hm).mul_right v)).symm
  · have hdigit : ¬ 2 ^ W ∣ d := Nat.not_dvd_of_pos_of_lt (Nat.pos_of_ne_zero h0) hd
    have hdvd : 2 ^ W ∣ 2 ^ m := Nat.pow_dvd_pow 2 hm
    exact ⟨fun h => absurd ((Nat.dvd_add_iff_left (Nat.dvd_mul_right _ v)).mpr (hdvd.trans h)) hdigit,
      fun h => absurd (hdvd.trans h) hdigit⟩

/-- R212: a power of 2 divides a nonzero value when its exponent is at most the trailing zero count. -/
theorem two_pow_dvd_val_iff {W : Nat} {N : Number} (hN : DigitsOk W N) (h0 : val W N ≠ 0) (m : Nat) :
    2 ^ m ∣ val W N ↔ m ≤ numberTrailingZeroBitCount W N := by
  rw [numberTrailingZeroBitCount]
  induction N generalizing m with
  | nil => exact absurd rfl h0
  | cons d ds ih =>
    obtain ⟨hd, hds⟩ := digitsOk_cons.mp hN
    rw [val_cons, countScan, tzcDigit]
    by_cases hz : d = 0
    · subst hz
      rw [val_cons, Nat.zero_add] at h0
      rw [if_pos rfl, tzcBelow_zero, Nat.zero_add]
      rcases Nat.le_total m W with hm | hm
      · exact iff_of_true ((Nat.pow_dvd_pow 2 hm).mul_right _) (Nat.le_add_right_of_le hm)
      · obtain ⟨k, rfl⟩ := Nat.exists_eq_add_of_le hm
        rw [Nat.pow_add, Nat.mul_dvd_mul_iff_left (Nat.two_pow_pos W), ih hds (Nat.ne_zero_of_mul_ne_zero_right h0),
          Nat.add_le_add_iff_left]
    · rw [if_neg hz, two_pow_dvd_add_iff hz hd, two_pow_dvd_iff_le_tzcBelow hz hd]

theorem numberTrailingZeroBitCount_of_val_eq_zero {W : Nat} {N : Number} (h : val W N = 0) :
    numberTrailingZeroBitCount W N = W * N.length := by
  rw [val_eq_zero_iff] at h
  rw [numberTrailingZeroBitCount]
  induction N with
  | nil => rfl
  | cons d ds ih =>
    obtain ⟨rfl, hds⟩ := List.forall_mem_cons.mp h
    rw [countScan, if_pos rfl, ih hds, tzcDigit, tzcBelow_zero, List.length_cons, Nat.mul_succ, Nat.add_comm]

theorem two_pow_numberTrailingZeroBitCount_dvd {W : Nat} {N : Number} (hN : DigitsOk W N) :
    2 ^ numberTrailingZeroBitCount W N ∣ val W N := by
  by_cases h0 : val W N = 0
  · rw [h0]
    exact Nat.dvd_zero _
  · exact (two_pow_dvd_val_iff hN h0 _).mpr le_rfl

theorem numberTrailingZeroBitCount_le {W : Nat} {N : Number} (hN : DigitsOk W N) :
    numberTrailingZeroBitCount W N ≤ W * N.length := by
  by_cases h0 : val W N = 0
  · exact (numberTrailingZeroBitCount_of_val_eq_zero h0).le
  · have hle := Nat.le_of_dvd (Nat.pos_of_ne_zero h0) (two_pow_numberTrailingZeroBitCount_dvd hN)
    exact ((Nat.pow_lt_pow_iff_right (by decide)).mp (hle.trans_lt (val_lt hN))).le

/-! ## The bit count commands (R211, R213, R215) -/

/-- A count of at most the total width fits in a scalar register (R215: it never exceeds `64 * 65535`). -/
theorem readX_writeX_bitCount {s : State} {N : Number} {c : Nat} (hlen : N.length ≤ 65535) (hc : c ≤ s.params.W * N.length)
    (xd : XReg) : ((s.writeX xd (zext64 c)).readX xd).toNat = c := by
  have hwidth : s.params.W * N.length ≤ 64 * 65535 := Nat.mul_le_mul s.params.W_le hlen
  rw [State.readX_writeX_self, zext64_toNat (by omega)]

/-- Settles O51: the leading zero count and the bit length of the value make up the total width. -/
theorem lzcCountsFromTheTop : Obligations.LzcCountsFromTheTop := by
  unfold Obligations.LzcCountsFromTheTop
  intro xd vs s W N hlen hN
  have hcount := numberLeadingZeroBitCount_add_size hN
  exact ⟨_, rfl, (readX_writeX_bitCount hlen (Nat.le.intro hcount) xd).trans (Nat.eq_sub_of_add_eq hcount),
    frame_writeX s xd _⟩

/-- Settles O52: the powers of 2 that divide a nonzero value are those up to the trailing zero count. -/
theorem tzcCountsFromTheBottom : Obligations.TzcCountsFromTheBottom := by
  unfold Obligations.TzcCountsFromTheBottom
  intro xd vs s W N hlen hN
  refine ⟨_, rfl, frame_writeX s xd _, ?_⟩
  rw [readX_writeX_bitCount hlen (numberTrailingZeroBitCount_le hN) xd]
  refine ⟨numberTrailingZeroBitCount_of_val_eq_zero, fun h0 => ⟨two_pow_numberTrailingZeroBitCount_dvd hN, ?_⟩⟩
  rw [two_pow_dvd_val_iff hN h0]
  exact Nat.not_succ_le_self _

/-- Settles O53: the total width fits in a scalar register. -/
theorem bwidIsTheTotalWidth : Obligations.BwidIsTheTotalWidth := by
  unfold Obligations.BwidIsTheTotalWidth
  intro xd vs s hlen
  exact ⟨_, rfl, readX_writeX_bitCount hlen le_rfl xd, frame_writeX s xd _⟩

/-! ## Laws (R208) -/

section
variable {W t : Nat} {N : Number} (hW : 0 < W) (hN : DigitsOk W N)
include hW hN

theorem shiftRightBy_zero : shiftRightBy W N 0 = N := by
  rw [shiftRightBy_eq_num hW hN, Nat.pow_zero, Nat.div_one, num_val hN]

theorem shiftLeftBy_zero : shiftLeftBy W N 0 = N := by
  rw [shiftLeftBy_eq_num hW hN, Nat.pow_zero, Nat.mul_one, num_val hN]

/-- No bit leaves the top when the count is at most the leading zeros. -/
theorem shiftRightBy_shiftLeftBy (ht : t ≤ numberLeadingZeroBitCount W N) : shiftRightBy W (shiftLeftBy W N t) t = N := by
  have hsize := numberLeadingZeroBitCount_add_size hN
  have hfits : val W N * 2 ^ t < 2 ^ (W * N.length) :=
    calc val W N * 2 ^ t < 2 ^ (val W N).size * 2 ^ t := Nat.mul_lt_mul_of_pos_right (Nat.lt_size_self _) (Nat.two_pow_pos t)
      _ = 2 ^ ((val W N).size + t) := (Nat.pow_add _ _ _).symm
      _ ≤ 2 ^ (W * N.length) := Nat.pow_le_pow_right (by decide) (by omega)
  rw [shiftRightBy_eq_num hW (digitsOk_shiftLeftBy hN t), shiftLeftBy_eq_num hW hN, length_num, val_num,
    Nat.mod_eq_of_lt hfits, Nat.mul_div_cancel _ (Nat.two_pow_pos t), num_val hN]

/-- No bit leaves the bottom when the count is at most the trailing zeros. -/
theorem shiftLeftBy_shiftRightBy (ht : t ≤ numberTrailingZeroBitCount W N) : shiftLeftBy W (shiftRightBy W N t) t = N := by
  have hdvd : 2 ^ t ∣ val W N := (Nat.pow_dvd_pow 2 ht).trans (two_pow_numberTrailingZeroBitCount_dvd hN)
  rw [shiftLeftBy_eq_num hW (digitsOk_shiftRightBy hN t), shiftRightBy_eq_num hW hN, length_num,
    val_num_of_le_val hN (Nat.div_le_self _ _), Nat.div_mul_cancel hdvd, num_val hN]

/-- R202 and R203 delegate a negated count to each other; at count 0 both are the identity. -/
theorem bitShift_neg (t : Nat) :
    bitShiftRight W N (-t) = shiftLeftBy W N t ∧ bitShiftLeft W N (-t) = shiftRightBy W N t := by
  rcases Nat.eq_zero_or_pos t with rfl | ht
  · simp [bitShiftRight, bitShiftLeft, shiftRightBy_zero hW hN, shiftLeftBy_zero hW hN]
  · simp [bitShiftRight, bitShiftLeft, ht]

end

@[simp] theorem bitShiftRight_natCast (W : Nat) (N : Number) (t : Nat) : bitShiftRight W N t = shiftRightBy W N t := by
  simp [bitShiftRight]

@[simp] theorem bitShiftLeft_natCast (W : Nat) (N : Number) (t : Nat) : bitShiftLeft W N t = shiftLeftBy W N t := by
  simp [bitShiftLeft]

/-- Settles O50: each law is that of the shift functions at a count `t >= 0`. -/
theorem shiftIdentities : Obligations.ShiftIdentities := by
  unfold Obligations.ShiftIdentities
  intro W N t hW hN
  obtain ⟨hright, hleft⟩ := bitShift_neg hW hN t
  simp only [hright, hleft, bitShiftRight_natCast, bitShiftLeft_natCast, and_true]
  exact ⟨shiftRightBy_shiftLeftBy hW hN, shiftLeftBy_shiftRightBy hW hN, shiftRightBy_zero hW hN, shiftLeftBy_zero hW hN,
    fun ht => ⟨if_pos ht, if_pos ht⟩⟩

end Sys2Proof.Machine

namespace Sys2Proof.Machine

/-! ## Digit-wise logic (spec/46_logic.md R230 to R234) -/

theorem length_digitwise (op : Nat → Nat → Nat) {A B : Number} (hl : A.length = B.length) :
    (digitwise op A B).length = A.length := by
  simp [digitwise, hl]

/-- Each digit of the result is the operator of the two operand digits at its index (R230). -/
theorem getElem?_digitwise (op : Nat → Nat → Nat) {A B : Number} {k a b : Nat} (ha : A[k]? = some a) (hb : B[k]? = some b) :
    (digitwise op A B)[k]? = some (op a b) :=
  List.getElem?_zipWith_eq_some.mpr ⟨a, b, ha, hb, rfl⟩

/-- The number `NOT` writes (R234). -/
def complement (W : Nat) (N : Number) : Number := N.map fun d => maxd W - d

@[simp] theorem complement_nil (W : Nat) : complement W [] = [] := rfl
@[simp] theorem complement_cons (W d : Nat) (ds : Number) : complement W (d :: ds) = (maxd W - d) :: complement W ds := rfl
@[simp] theorem length_complement (W : Nat) (N : Number) : (complement W N).length = N.length := List.length_map _

/-- Each digit of the result is `MAXD` less the operand's digit (R230). -/
theorem getElem?_complement (W : Nat) {N : Number} {k d : Nat} (hd : N[k]? = some d) :
    (complement W N)[k]? = some (maxd W - d) := by
  simp [complement, hd]

theorem maxd_add_one (W : Nat) : maxd W + 1 = 2 ^ W := Nat.sub_add_cancel Nat.one_le_two_pow

theorem digitsOk_complement (W : Nat) (N : Number) : DigitsOk W (complement W N) := by
  intro e he
  obtain ⟨d, -, rfl⟩ := List.mem_map.mp he
  exact (Nat.sub_le _ _).trans_lt (Nat.lt_of_succ_le (maxd_add_one W).le)

/-- A number and its complement add up to the largest value of their length: each digit pair adds up to `MAXD`. -/
theorem val_complement_add_val {W : Nat} {N : Number} (hN : DigitsOk W N) :
    val W (complement W N) + val W N + 1 = 2 ^ (W * N.length) := by
  induction N with
  | nil => simp
  | cons d ds ih =>
    obtain ⟨hd, hds⟩ := digitsOk_cons.mp hN
    have hmax := maxd_add_one W
    have hdigit : maxd W - d + d = maxd W := Nat.sub_add_cancel (by omega)
    simp only [complement_cons, val_cons, List.length_cons]
    calc (maxd W - d + 2 ^ W * val W (complement W ds)) + (d + 2 ^ W * val W ds) + 1
        = (maxd W - d + d + 1) + 2 ^ W * (val W (complement W ds) + val W ds) := by ring
      _ = 2 ^ W * (val W (complement W ds) + val W ds + 1) := by rw [hdigit, hmax]; ring
      _ = 2 ^ (W * (ds.length + 1)) := by rw [ih hds, Nat.mul_succ, Nat.add_comm, Nat.pow_add]

section
variable {s : State} (hp : s.params.logicPresent = true)
include hp

theorem logicBinary_completes {va vb : VReg} (hl : (s.readV va).length = (s.readV vb).length) (op : Nat → Nat → Nat)
    (vd : VReg) : logicBinary op vd va vb s = .next (s.writeV vd (digitwise op (s.readV va) (s.readV vb))) := by
  rw [logicBinary, requireLogic_present hp, require_true hl]

/-- The common clause of `AND`, `OR` and `XOR` (R231 to R233), for any digit operator. -/
theorem logicBinary_spec {va vb : VReg} (hl : (s.readV va).length = (s.readV vb).length) (op : Nat → Nat → Nat) (vd : VReg) :
    ∃ t, logicBinary op vd va vb s = .next t ∧ (t.readV vd).length = (s.readV va).length ∧
      (∀ k a b : Nat, (s.readV va)[k]? = some a → (s.readV vb)[k]? = some b → (t.readV vd)[k]? = some (op a b)) ∧
      Frame [vd] [] s t := by
  refine ⟨_, logicBinary_completes hp hl op vd, ?_⟩
  rw [State.readV_writeV_self]
  exact ⟨length_digitwise op hl, fun _ _ _ => getElem?_digitwise op, frame_writeV s vd _⟩

theorem exec_not (vd va : VReg) :
    exec (.not vd va) s = .next (s.writeV vd (complement s.params.W (s.readV va))) :=
  requireLogic_present hp _

end

/-- Settles O54: the binary commands are `logicBinary` at their operator, and `NOT` writes the complement. -/
theorem logicIsDigitwise : Obligations.LogicIsDigitwise := by
  unfold Obligations.LogicIsDigitwise
  intro vd va vb s A B hp
  refine ⟨fun hl => ⟨logicBinary_spec hp hl (· &&& ·) vd, logicBinary_spec hp hl (· ||| ·) vd,
    logicBinary_spec hp hl (· ^^^ ·) vd⟩, _, exec_not hp vd va, ?_⟩
  rw [State.readV_writeV_self]
  exact ⟨length_complement _ A, fun _ _ => getElem?_complement _, frame_writeV s vd _⟩

/-- Settles O55: the destination holds the complement, whose digits each make up `MAXD` with the operand's. -/
theorem notComplementsTheValue : Obligations.NotComplementsTheValue := by
  unfold Obligations.NotComplementsTheValue
  intro vd va s W A hp hA
  refine ⟨_, exec_not hp vd va, ?_⟩
  rw [State.readV_writeV_self]
  exact ⟨digitsOk_complement W A, Nat.eq_sub_of_add_eq (val_complement_add_val hA), frame_writeV s vd _⟩

end Sys2Proof.Machine

namespace Sys2Proof.Machine

/-! ## Transfer (spec/47_transfer.md R250 to R258) -/

theorem take_padRight (N : Number) (m : Nat) : (padRight N m).take N.length = N := List.take_left

theorem drop_padRight (N : Number) (m : Nat) : (padRight N m).drop N.length = zeros (m - N.length) := List.drop_left

theorem eq_zero_of_mem_zeros {d n : Nat} (h : d ∈ zeros n) : d = 0 := List.eq_of_mem_replicate h

theorem exec_vzero {len : Imm16} {s : State} (hcap : len.toNat ≤ s.params.cap) (vd : VReg) :
    exec (.vzero vd len) s = .next (s.writeV vd (zeros len.toNat)) :=
  require_true hcap _ _ _

theorem exec_vzero_capacity {len : Imm16} {s : State} (hcap : s.params.cap < len.toNat) (vd : VReg) :
    exec (.vzero vd len) s = .next (s.takeFault .capacity) :=
  require_false hcap.not_ge _ _ _

theorem exec_vwr {vd : VReg} {xs : XReg} {idx : Imm16} {s : State} (hd : (s.readX xs).toNat < 2 ^ s.params.W)
    (hidx : idx.toNat < (s.readV vd).length) :
    exec (.vwr vd xs idx) s = .next (s.writeV vd ((s.readV vd).set idx.toNat (s.readX xs).toNat)) := by
  rw [exec, execVwr, withDigit_ok hd, require_true hidx]

theorem exec_vrd {vs : VReg} {idx : Imm16} {s : State} (hidx : idx.toNat < (s.readV vs).length) (xd : XReg) :
    exec (.vrd xd vs idx) s = .next (s.writeX xd (zext64 ((s.readV vs).getD idx.toNat 0))) :=
  require_true hidx _ _ _

theorem exec_vpad {vs : VReg} {len : Imm16} {s : State} (hlen : (s.readV vs).length ≤ len.toNat)
    (hcap : len.toNat ≤ s.params.cap) (vd : VReg) :
    exec (.vpad vd vs len) s = .next (s.writeV vd (padRight (s.readV vs) len.toNat)) :=
  (require_true hlen _ _ _).trans (require_true hcap _ _ _)

/-- Settles O27: both checks pass, and the destination's digit list is set at the index. -/
theorem vwrWritesOneDigit : Obligations.VwrWritesOneDigit := by
  unfold Obligations.VwrWritesOneDigit
  intro vd xs idx s hd hidx
  refine ⟨_, exec_vwr hd hidx, ?_⟩
  rw [State.readV_writeV_self]
  refine ⟨List.length_set, fun j => ?_, frame_writeV s vd _⟩
  by_cases hj : j = idx.toNat
  · rw [if_pos hj, hj, List.getElem?_set_self hidx]
  · rw [if_neg hj, List.getElem?_set_ne (Ne.symm hj)]

/-- Settles O28: the index check passes, and the digit it names fits in a scalar register. -/
theorem vrdReadsOneDigit : Obligations.VrdReadsOneDigit := by
  unfold Obligations.VrdReadsOneDigit
  intro xd vs idx s hN hidx
  refine ⟨_, exec_vrd hidx xd, ?_, frame_writeX s xd _⟩
  rw [State.readX_writeX_self, toNat_zext64_of_digit s.params (getD_lt_two_pow hN _), List.getD_eq_getElem _ _ hidx,
    List.getElem?_eq_getElem hidx]

/-- Settles O30: both checks pass, and the destination holds the source with zeros above it. -/
theorem vpadKeepsTheValue : Obligations.VpadKeepsTheValue := by
  unfold Obligations.VpadKeepsTheValue
  intro vd vs len s hlen hcap
  refine ⟨_, exec_vpad hlen hcap vd, ?_⟩
  rw [State.readV_writeV_self, take_padRight, drop_padRight]
  exact ⟨length_padRight hlen, rfl, fun _ => eq_zero_of_mem_zeros, val_padRight _ _ _, frame_writeV s vd _⟩

/-- Settles O24: `XLD` writes `DIN` and `XLI` the immediate, which 64 bits hold. -/
theorem xldAndXliLoadAScalar : Obligations.XldAndXliLoadAScalar := by
  unfold Obligations.XldAndXliLoadAScalar
  intro xd imm s
  refine ⟨⟨_, rfl, State.readX_writeX_self s xd _, frame_writeX s xd _⟩, _, rfl, ?_, frame_writeX s xd _⟩
  rw [State.readX_writeX_self, immWord, BitVec.toNat_setWidth_of_le (by decide)]

/-- Settles O25: `XRD` writes `DOUT` only, so the old `DOUT` in its place gives the state before. -/
theorem xrdDrivesDout : Obligations.XrdDrivesDout := by
  unfold Obligations.XrdDrivesDout
  intro xs s
  exact ⟨_, exec_xrd xs s, rfl, Frame.refl s⟩

/-- Settles O26: the capacity check passes up to `CAP` and raises `CAPACITY` above it. -/
theorem vzeroMakesZeros : Obligations.VzeroMakesZeros := by
  unfold Obligations.VzeroMakesZeros
  intro vd len s
  refine ⟨fun hcap => ⟨_, exec_vzero hcap vd, ?_⟩, fun hcap => exec_vzero_capacity hcap vd⟩
  rw [State.readV_writeV_self]
  exact ⟨length_zeros _, fun _ => eq_zero_of_mem_zeros, val_zeros _ _, frame_writeV s vd _⟩

/-- Settles O29: a length that a register can have fits in a scalar register, and `VMOV` writes the source as it was read. -/
theorem vlenAndVmovReadAWholeNumber : Obligations.VlenAndVmovReadAWholeNumber := by
  unfold Obligations.VlenAndVmovReadAWholeNumber
  intro xd vd vs s
  refine ⟨fun hlen => ⟨_, rfl, ?_, frame_writeX s xd _⟩, _, rfl, State.readV_writeV_self s vd _, frame_writeV s vd _⟩
  rw [State.readX_writeX_self, zext64_toNat (hlen.trans_lt (by decide))]

end Sys2Proof.Machine

namespace Sys2Proof.Machine

/-! ## The first fault of a command (spec/60_exceptions.md R300, R302, R312) -/

/-- Whether some value of its operands makes a command raise the code (R300, "raised by"). -/
def mayRaise (i : Instr) (s : State) : FaultCode → Bool
  | .none => false
  | .illegalCmd => twoDestOps.contains (asmParts i).1 || i.needsLogic
  | .digitRange => !(digitOperands i).isEmpty
  | .lenMismatch => (equalLengthOperands i).isSome
  | .index => (indexOperand i).isSome
  | .padLength => (padOperand i).isSome
  | .capacity => (requestedLength i s).isSome
  | .divByZero => (divisorOperand i).isSome

theorem mayRaise_of_faultCondition {c : FaultCode} {i : Instr} {s : State} (h : faultCondition c i s = true) :
    mayRaise i s c = true := by
  cases c with
  | none => cases h
  | illegalCmd =>
    by_contra hno
    obtain ⟨hdests, hlogic⟩ : (asmParts i).1 ∉ twoDestOps ∧ i.needsLogic = false := by simpa [mayRaise] using hno
    have hdistinct : i.distinctDests = true := (distinctDests_iff i).mpr fun hmem => absurd hmem hdests
    simp [faultCondition, Instr.wellFormed, hdistinct, hlogic] at h
  | digitRange =>
    obtain ⟨r, hr, -⟩ := List.any_eq_true.mp h
    simpa [mayRaise] using List.ne_nil_of_mem hr
  | lenMismatch | index | padLength | capacity | divByZero =>
    obtain ⟨o, ho, -⟩ := (Option.any_eq_true _ _).mp h
    exact Option.isSome_iff_exists.mpr ⟨o, ho⟩

/-- The order of R302 can be read on the codes the command may raise. -/
theorem firstFault_eq_find?_mayRaise (i : Instr) (s : State) :
    firstFault i s = (faultOrder.filter (mayRaise i s)).find? fun c => faultCondition c i s := by
  have hboth : (fun c => faultCondition c i s) = fun c => decide (mayRaise i s c = true ∧ faultCondition c i s = true) := by
    funext c
    rw [Bool.eq_iff_iff, decide_eq_true_iff]
    exact ⟨fun h => ⟨mayRaise_of_faultCondition h, h⟩, And.right⟩
  rw [firstFault, List.find?_filter, ← hboth]

/-! ### Each condition of R300 is exactly the failure of its check -/

section
variable {i : Instr} {s : State}

theorem faultCondition_illegalCmd_iff_dests {d e : Fin 16} (hi : i.distinctDests = decide (d ≠ e))
    (hl : i.needsLogic = false) :
    faultCondition .illegalCmd i s = true ↔ ¬ d ≠ e := by
  simp [faultCondition, Instr.wellFormed, hi, hl]

theorem faultCondition_illegalCmd_iff_logic (hi : i.distinctDests = true) (hl : i.needsLogic = true) :
    faultCondition .illegalCmd i s = true ↔ ¬ s.params.logicPresent = true := by
  simp [faultCondition, Instr.wellFormed, hi, hl]

theorem faultCondition_digitRange_iff :
    faultCondition .digitRange i s = true ↔ ∃ r ∈ digitOperands i, ¬ s.digitOk r = true := by
  simp [faultCondition, State.digitOk_iff, -Bool.not_eq_true]

theorem faultCondition_lenMismatch_iff {a b : VReg} (hi : equalLengthOperands i = some (a, b)) :
    faultCondition .lenMismatch i s = true ↔ ¬ (s.readV a).length = (s.readV b).length := by
  simp [faultCondition, hi]

theorem faultCondition_index_iff {r : VReg} {k : Nat} (hi : indexOperand i = some (r, k)) :
    faultCondition .index i s = true ↔ ¬ k < (s.readV r).length := by
  simp [faultCondition, hi]

theorem faultCondition_padLength_iff {r : VReg} {m : Nat} (hi : padOperand i = some (r, m)) :
    faultCondition .padLength i s = true ↔ ¬ (s.readV r).length ≤ m := by
  simp [faultCondition, hi]

theorem faultCondition_capacity_iff {m : Nat} (hi : requestedLength i s = some m) :
    faultCondition .capacity i s = true ↔ ¬ m ≤ s.params.cap := by
  simp [faultCondition, hi]

theorem faultCondition_divByZero_iff {r : VReg} (hi : divisorOperand i = some r) :
    faultCondition .divByZero i s = true ↔ ¬ val s.params.W (s.readV r) ≠ 0 := by
  simp [faultCondition, hi, val_eq_zero_iff]

end

/-! ### The checks of a command, in order -/

/-- The answer is the fault entry of the first code of `cs` whose condition holds, if one does. -/
def ReportsFirst (i : Instr) (s : State) (cs : List FaultCode) (r : Result) : Prop :=
  ∀ c, (cs.find? fun c => faultCondition c i s) = some c → r = .next (s.takeFault c)

section
variable {i : Instr} {s : State} {c : FaultCode} {cs : List FaultCode}

theorem ReportsFirst.nil (r : Result) : ReportsFirst i s [] r := nofun

/-- A check that fails exactly on the condition of its code reports it before the codes that follow. -/
theorem ReportsFirst.check {ok : Prop} [Decidable ok] {k : Result} (hc : faultCondition c i s = true ↔ ¬ ok)
    (hk : ok → ReportsFirst i s cs k) : ReportsFirst i s (c :: cs) (require ok c s k) := by
  intro d hd
  by_cases ho : ok
  · rw [List.find?_cons_of_neg (p := fun c => faultCondition c i s) (by simpa [hc] using ho)] at hd
    rw [require_true ho]
    exact hk ho d hd
  · rw [List.find?_cons_of_pos (p := fun c => faultCondition c i s) (hc.mpr ho)] at hd
    rw [require_false ho, Option.some.inj hd]

theorem ReportsFirst.digit {a : XReg} {k : Nat → Result} (ha : digitOperands i = [a])
    (hk : ∀ x, ReportsFirst i s cs (k x)) : ReportsFirst i s (.digitRange :: cs) (withDigit a s k) :=
  .check (by simp [faultCondition_digitRange_iff, ha]) fun _ => hk _

/-- Both digit operands are checked before the codes that follow (R312). -/
theorem ReportsFirst.digits {a b : XReg} {k : Nat → Nat → Result} (hab : digitOperands i = [a, b])
    (hk : ∀ x y, ReportsFirst i s cs (k x y)) :
    ReportsFirst i s (.digitRange :: cs) (withDigit a s fun x => withDigit b s (k x)) := by
  by_cases ha : s.digitOk a = true
  · rw [withDigit, require_true ha]
    exact .check (by simp [faultCondition_digitRange_iff, hab, ha]) fun _ => hk _ _
  · exact .check (by simp [faultCondition_digitRange_iff, hab, ha]) fun hok => absurd hok ha

end

/-- The checks of every command stand in the order of R302. -/
theorem exec_reportsFirst (i : Instr) (s : State) : ReportsFirst i s (faultOrder.filter (mayRaise i s)) (exec i s) :=
  match i with
  | .xld .. | .xli .. | .xrd .. | .vlen .. | .vmov .. | .eq .. | .shl .. | .shr .. | .lzc .. | .tzc .. | .bwid .. => .nil _
  | .vzero .. => .check (faultCondition_capacity_iff rfl) fun _ => .nil _
  | .vwr .. => .digit rfl fun _ => .check (faultCondition_index_iff rfl) fun _ => .nil _
  | .vrd .. => .check (faultCondition_index_iff rfl) fun _ => .nil _
  | .vpad .. => .check (faultCondition_padLength_iff rfl) fun _ => .check (faultCondition_capacity_iff rfl) fun _ => .nil _
  | .adds .. | .subs .. => .check (faultCondition_illegalCmd_iff_dests rfl rfl) fun _ => .digits rfl fun _ _ => .nil _
  | .muls vd xa xb => show ReportsFirst _ s _ (execMuls vd xa xb s) from .digits rfl fun _ _ => .nil _
  | .shrf vd vs xt xf => show ReportsFirst _ s _ (execShrf vd vs xt xf s) from .digit rfl fun _ => .nil _
  | .cmp .. | .add .. | .sub .. => .check (faultCondition_lenMismatch_iff rfl) fun _ => .nil _
  | .mulsc .. => .digit rfl fun _ => .check (faultCondition_capacity_iff rfl) fun _ => .nil _
  | .mul .. => .check (faultCondition_lenMismatch_iff rfl) fun _ => .check (faultCondition_capacity_iff rfl) fun _ => .nil _
  | .div .. =>
    .check (faultCondition_illegalCmd_iff_dests rfl rfl) fun _ => .check (faultCondition_lenMismatch_iff rfl) fun _ =>
      .check (faultCondition_divByZero_iff rfl) fun _ => .nil _
  | .and .. | .or .. | .xor .. =>
    .check (faultCondition_illegalCmd_iff_logic rfl rfl) fun _ => .check (faultCondition_lenMismatch_iff rfl) fun _ => .nil _
  | .not .. => .check (faultCondition_illegalCmd_iff_logic rfl rfl) fun _ => .nil _

theorem exec_of_firstFault {i : Instr} {s : State} {c : FaultCode} (h : firstFault i s = some c) :
    exec i s = .next (s.takeFault c) :=
  exec_reportsFirst i s c (firstFault_eq_find?_mayRaise i s ▸ h)

/-- Settles O18: the checks stand in the order of R302, and a command that reports no fault keeps the status by its frame. -/
theorem commandsReportTheFirstFault : Obligations.CommandsReportTheFirstFault := by
  unfold Obligations.CommandsReportTheFirstFault
  refine fun i s => ⟨fun c => exec_of_firstFault, fun h => ?_⟩
  obtain ⟨t, ht, hw⟩ := exec_writesOnlyDests h
  exact ⟨t, ht, hw.frame.faulted, hw.frame.faultCode, hw.frame.faultCmd⟩

/-! ### The digit check (R312) -/

/-- R312's wording of the check: at `W = 64` no register exceeds a digit. -/
theorem State.not_digitOk_iff (s : State) (r : XReg) :
    ¬ s.digitOk r = true ↔ s.params.W < 64 ∧ (s.readX r).toNat / 2 ^ s.params.W ≠ 0 := by
  simp [State.digitOk, Nat.shiftRight_eq_div_pow]

/-- A legal command with a digit operand out of range reports `DIGIT_RANGE`, which R302 puts next to `ILLEGAL_CMD`. -/
theorem firstFault_eq_digitRange {i : Instr} {s : State} {r : XReg} (hi : i.wellFormed s.params.logicPresent = true)
    (hr : r ∈ digitOperands i) (h : ¬ s.digitOk r = true) : firstFault i s = some .digitRange := by
  have hlegal : ¬ faultCondition .illegalCmd i s = true := by simp [faultCondition, hi]
  rw [firstFault, faultOrder, List.find?_cons_of_neg (p := fun c => faultCondition c i s) hlegal,
    List.find?_cons_of_pos (p := fun c => faultCondition c i s) (faultCondition_digitRange hr h)]

/-- Settles O19: the digit read is R312's check, and the order of R302 puts `DIGIT_RANGE` first on a legal command. -/
theorem digitReadChecksItsRange : Obligations.DigitReadChecksItsRange := by
  unfold Obligations.DigitReadChecksItsRange
  refine ⟨fun r s k => ?_, ?_⟩
  · rw [withDigit]
    by_cases h : s.digitOk r = true
    · rw [require_true h, if_neg (by rwa [← State.not_digitOk_iff, not_not])]
      rfl
    · rw [require_false h, if_pos ((s.not_digitOk_iff r).mp h)]
      rfl
  · rintro i s hi ⟨r, hr, h⟩
    exact exec_of_firstFault (firstFault_eq_digitRange hi hr ((s.not_digitOk_iff r).mpr h))

end Sys2Proof.Machine

namespace Sys2Proof.Machine

/-! ## Steps that accept no command (spec/60_exceptions.md R307, R317; spec/70_reset_and_hazards.md R340, R354) -/

theorem State.cmdReady_eq_false_iff (s : State) : s.cmdReady = false ↔ s.rstLevel = true ∨ s.faulted = true := by
  simp [State.cmdReady, or_iff_not_imp_left]

section
variable {s : State} (hc : s.offerChanges = false)
include hc

theorem step_of_rstLevel (hr : s.rstLevel = true) : step s = .next s.applyReset.keepOffer.tick := by
  simp [step, hc, hr]

theorem step_of_not_accepted (hr : s.rstLevel = false) (hn : s.cmdValid = false ∨ s.cmdReady = false) :
    step s = .next s.keepOffer.tick := by
  rcases hn with hn | hn <;> simp [step, hc, hr, hn]

end

theorem offerChanges_of_not_cmdValid {s : State} (h : s.cmdValid = false) : s.offerChanges = false := by
  rw [← Bool.not_eq_true, State.offerChanges_iff]
  rintro ⟨w, din, rest, hs, -⟩
  simp [State.cmdValid, hs] at h

theorem offerChanges_of_offers {s : State} {w : Word32} {din : Word64} {how : Waiting} {rest : List Offer}
    (hs : s.offers = .command w din how :: rest) (hhow : how ≠ .change 0) : s.offerChanges = false := by
  rw [← Bool.not_eq_true, State.offerChanges_iff]
  simp [hs, hhow]

/-- Settles O12: a faulted core is not ready, and the step that accepts nothing keeps a held offer. -/
theorem faultedCoreAcceptsNothing : Obligations.FaultedCoreAcceptsNothing := by
  unfold Obligations.FaultedCoreAcceptsNothing
  intro s hf
  have hready : s.cmdReady = false := s.cmdReady_eq_false_iff.mpr (.inr hf)
  refine ⟨hready, fun w din rest hr hs => ?_⟩
  rw [step_of_not_accepted (offerChanges_of_offers hs (by decide)) hr (.inr hready)]
  simp [State.keepOffer, State.tick, hs]

/-- Settles O15: nothing is accepted, and of the host's lists an idle entry and one level pass. -/
theorem idleKeepsTheState : Obligations.IdleKeepsTheState := by
  unfold Obligations.IdleKeepsTheState
  intro s hv hr
  rw [step_of_not_accepted (offerChanges_of_not_cmdValid hv) hr (.inl hv), State.keepOffer, waitingOffers_of_not_cmdValid hv]
  rfl

/-- Settles O13: the step is the reset, whose state is ready as soon as `rst` is 0. -/
theorem resetInputResets : Obligations.ResetInputResets := by
  unfold Obligations.ResetInputResets
  intro s hr hc
  refine ⟨s.cmdReady_eq_false_iff.mpr (.inl hr), _, step_of_rstLevel hc hr, rfl, fun w din rest hs => ?_,
    fun hv => waitingOffers_of_not_cmdValid hv, fun ht => ?_⟩
  · simp [hs]
  · simp [State.cmdReady, ht]

/-- Settles O14, by the cases of a step: a reset leaves the reset values, a faulted core performs no command, and a step that
accepts nothing keeps the status. -/
theorem onlyResetLeavesAFault : Obligations.OnlyResetLeavesAFault := by
  unfold Obligations.OnlyResetLeavesAFault
  intro s t hf h
  rcases step_cases h with ⟨hr, rfl⟩ | ⟨-, -, hf', -⟩ | ⟨-, -, rfl⟩
  · refine ⟨fun hr' => ?_, fun _ => ⟨hr, by simp⟩⟩
    rw [hr] at hr'
    cases hr'
  · rw [hf] at hf'
    cases hf'
  · exact ⟨fun _ => ⟨hf, rfl, rfl⟩, fun ht => absurd (hf.symm.trans ht) (by decide)⟩

theorem perform_answers_next (s : State) : ∃ t, s.perform = .next t := by
  have hp := perform_faultsOr_writesOnlyDests s
  generalize s.perform = r at hp
  cases hp with
  | faulted => exact ⟨_, rfl⟩
  | completed => exact ⟨_, rfl⟩

theorem step_of_offerChanges {s : State} (h : s.offerChanges = true) : step s = .fault .offerChanged := if_pos h

theorem step_answers_next {s : State} (hc : s.offerChanges = false) : ∃ t, step s = .next t := by
  cases hr : s.rstLevel with
  | true => exact ⟨_, step_of_rstLevel hc hr⟩
  | false =>
    by_cases hn : s.cmdValid = false ∨ s.cmdReady = false
    · exact ⟨_, step_of_not_accepted hc hr hn⟩
    · obtain ⟨hv, hready⟩ := not_or.mp hn
      obtain ⟨u, hu⟩ := perform_answers_next s
      rw [step_of_cmdReady (by simpa using hv) (by simpa using hready), hu]
      exact ⟨_, rfl⟩

/-- Settles O16: the step tests for a changed offer first, and answers a next state in every other case. -/
theorem stepStopsOnlyOnAChangedOffer : Obligations.StepStopsOnlyOnAChangedOffer := by
  unfold Obligations.StepStopsOnlyOnAChangedOffer
  intro s
  simp only [← State.cmdReady_eq_false_iff, ← State.offerChanges_iff]
  cases hc : s.offerChanges with
  | true => simp [step_of_offerChanges hc]
  | false =>
    obtain ⟨t, ht⟩ := step_answers_next hc
    simp [ht]

/-- A step that accepts nothing, with `rst` at either level, leaves the offers as the host's waiting has them. -/
theorem step_unaccepted {s : State} (hc : s.offerChanges = false) (hready : s.cmdReady = false) :
    ∃ t, step s = .next t ∧ t.offers = waitingOffers s.offers ∧
      (s.rstLevel = false → t = { s with offers := t.offers, rst := s.rst.tail }) := by
  cases hr : s.rstLevel with
  | true => exact ⟨_, step_of_rstLevel hc hr, rfl, nofun⟩
  | false => exact ⟨_, step_of_not_accepted hc hr (.inr hready), rfl, fun _ => rfl⟩

/-- Settles O57: the step accepts nothing, and each way of waiting is a case of `waitingOffers`. -/
theorem unacceptedOffersWait : Obligations.UnacceptedOffersWait := by
  unfold Obligations.UnacceptedOffersWait
  intro s w din how rest hs hready hhow
  obtain ⟨t, ht, hoffers, hkeep⟩ := step_unaccepted (offerChanges_of_offers hs hhow) hready
  rw [hs] at hoffers
  refine ⟨t, ht, ?_, ?_, ?_, ?_, hkeep⟩
  · rintro rfl
    exact hoffers.trans hs.symm
  · rintro rfl
    exact ⟨hoffers, by simp [State.cmdValid, hoffers]⟩
  · rintro n rfl
    exact hoffers
  · rintro n rfl
    exact hoffers

end Sys2Proof.Machine

namespace Sys2Proof.Machine

/-! ## Equality and comparison (spec/41_compare.md R124) -/

/-- The scan meets no difference exactly on equal digit lists. -/
theorem compareScan_eq_equal_iff {A B : List Nat} (hl : A.length = B.length) : compareScan A B = .equal ↔ A = B := by
  induction A generalizing B with
  | nil =>
    cases List.length_eq_zero_iff.mp hl.symm
    simp [compareScan]
  | cons a as ih =>
    cases B with
    | nil => cases hl
    | cons b bs =>
      rcases lt_trichotomy a b with hab | rfl | hab
      · simp [compareScan_cons_of_lt hab, hab.ne]
      · simp [compareScan_cons_self, ih (Nat.succ.inj hl)]
      · simp [compareScan_cons_of_gt hab, hab.ne']

/-- Settles O36: each side says that the digit lists are equal. -/
theorem equalityAgreesWithCompare : Obligations.EqualityAgreesWithCompare := by
  unfold Obligations.EqualityAgreesWithCompare
  intro A B hl
  rw [numbersEqual_iff, compareNum, compareScan_eq_equal_iff (by simpa using hl), List.reverse_inj]

end Sys2Proof.Machine
